-- ==== Sys2Proof/Word.lean ====
section
/-!
DEFINITION. The words of the hardware: bytes, 32-bit words and 64-bit pointer values (spec/00_scope.md R10, R11).
-/

namespace Sys2Proof

/-- A byte of memory (R45). -/
abbrev Byte := BitVec 8

/-- A 32-bit value: a command word, CMD, STATUS, KCOUNT, or a binary32 datum (R11). -/
abbrev Bits32 := BitVec 32

/-- A 64-bit value: the contents of a pointer register (R30). -/
abbrev Bits64 := BitVec 64

end Sys2Proof
end

