-- ==== Sys2Proof/Syntax/Mode.lean ====
section
/-!
DEFINITION. The dispatch modes (spec/30_encoding.md R72).
-/

namespace Sys2Proof

/-- What the MODE field of a DISPATCH names (R72, R100). -/
inductive Mode where
  /-- MODE 0b00: W = 4, fp_vector_adder_4w; also the mode of a command that names none (R8, R80). -/
  | narrow
  /-- MODE 0b01: W = 8, fp_vector_adder_8w. -/
  | medium
  /-- MODE 0b10: W = 16, fp_vector_adder_16w. -/
  | wide
  /-- MODE 0b11: selects no unit; the command raises ERR_MODE (R102). -/
  | unsupported
  deriving DecidableEq, Repr

end Sys2Proof
end

