-- ==== Sys2Proof/Syntax.lean ====
section
/-!
DEFINITION. The command set (spec/30_encoding.md R69, R74; spec/opcode_table.json): one constructor per row of the table.
The commands have no register, address or immediate operand; DISPATCH alone has an operand, its mode.
-/

namespace Sys2Proof

/-- A command of the block. -/
inductive Instr where
  /-- `vadd4`: one 4-lane addition (R95). -/
  | vadd4
  /-- `vadd8`: one 8-lane addition (R96). -/
  | vadd8
  /-- `vadd16`: one 16-lane addition (R97). -/
  | vadd16
  /-- `dispatch <mode>`: the 16-element addition in chunks of the mode's width (R101). -/
  | dispatch (mode : Mode)
  deriving DecidableEq, Repr

/-- `dispatch` written with or without a mode: an absent mode is narrow (R8, R80). -/
def Instr.dispatchOf (mode : Option Mode) : Instr := .dispatch (mode.getD .narrow)

end Sys2Proof
end

