-- ==== Sys2Proof/Decode.lean ====
section
/-!
DEFINITION. The command word: its decoder, total on every 32-bit word (spec/30_encoding.md R73), and its encoder (R68, R69,
R72). A reserved word (R75) is rejected by the name of what makes it reserved.
-/

namespace Sys2Proof

/-- Why a word is reserved (R75). -/
inductive ReservedWord where
  /-- A bit of RSVD, [31:6], is set (R70). -/
  | rsvdSet
  /-- OP is 0x0 or one of 0x5 .. 0xF (R69). -/
  | opReserved
  /-- OP is a VADD's and MODE is not zero (R71). -/
  | modeSet
  deriving DecidableEq, Repr

/-- OP, bits [3:0] (R68). -/
def opField (w : Bits32) : BitVec 4 := w.extractLsb' 0 4

/-- MODE, bits [5:4] (R68). -/
def modeField (w : Bits32) : BitVec 2 := w.extractLsb' 4 2

/-- RSVD, bits [31:6] (R68). -/
def rsvdField (w : Bits32) : BitVec 26 := w.extractLsb' 6 26

/-- The mode a MODE field names (R72). -/
def Mode.ofBits (m : BitVec 2) : Mode :=
  if m = 0b00#2 then .narrow
  else if m = 0b01#2 then .medium
  else if m = 0b10#2 then .wide
  else .unsupported

/-- The MODE field of a mode (R72). -/
def Mode.toBits : Mode → BitVec 2
  | .narrow => 0b00#2
  | .medium => 0b01#2
  | .wide => 0b10#2
  | .unsupported => 0b11#2

/-- A VADD's word is the command only when its MODE is zero (R71). -/
def vaddOf (i : Instr) (mode : BitVec 2) : Except ReservedWord Instr :=
  if mode = 0b00#2 then .ok i else .error .modeSet

/-- The command of a word (R73). -/
def decode (w : Bits32) : Except ReservedWord Instr :=
  if rsvdField w ≠ 0 then .error .rsvdSet
  else if opField w = 0x1#4 then vaddOf .vadd4 (modeField w)
  else if opField w = 0x2#4 then vaddOf .vadd8 (modeField w)
  else if opField w = 0x3#4 then vaddOf .vadd16 (modeField w)
  else if opField w = 0x4#4 then .ok (.dispatch (Mode.ofBits (modeField w)))
  else .error .opReserved

/-- A word from its fields, RSVD zero (R68, R70). -/
def commandWord (mode : BitVec 2) (op : BitVec 4) : Bits32 := 0#26 ++ mode ++ op

/-- The word of a command (R68, R69, R72). -/
def encode : Instr → Bits32
  | .vadd4 => commandWord 0b00#2 0x1#4
  | .vadd8 => commandWord 0b00#2 0x2#4
  | .vadd16 => commandWord 0b00#2 0x3#4
  | .dispatch m => commandWord m.toBits 0x4#4

/-- The decoder on a row of the opcode table: the low `nbits` bits of `w`, with zeros above, as one 32-bit word (R67). -/
def decodeTableWord (nbits w : Nat) : Option Instr :=
  match decode (BitVec.ofNat 32 (w % 2 ^ nbits)) with
  | .ok i => some i
  | .error _ => none

end Sys2Proof
end

