-- ==== Sys2Proof/Config.lean ====
section
/-!
DEFINITION. What the platform fixes and what the spec leaves open (spec/00_scope.md R7, R9).
-/

namespace Sys2Proof

/-- N, the number of elements of each array of a DISPATCH (R7). -/
abbrev Config.arrayLen : Nat := 16

/-- The size in bytes of the register window (R20). -/
abbrev Config.windowBytes : Nat := 0x40

/-- What a byte of memory that nothing has written reads as. DESIGN CHOICE, unsafe: log entry 2. -/
def Config.unlistedByte : Byte := 0x00#8

/-- Free bits for NAN_PROP (R86): nothing is known of them. Log entry 5. -/
opaque Config.nanBits : Bits32 → Bits32 → Bits32

/-- A range of byte addresses: `base .. base + size - 1`. -/
structure Region where
  base : Nat
  size : Nat
  deriving DecidableEq, Repr

/-- The parameters the spec leaves OPEN (R9), as plain data: every finite set of bytes is a list of ranges.
No step changes them. Log entry 3. -/
structure Platform where
  /-- ADDR_W, the width of a memory address in bits (R45). -/
  addrW : Nat
  /-- BLOCK_BASE, the host's address of the register window (R21). -/
  blockBase : Bits64
  /-- The platform's readable set, behind ADMIT_R (R52). -/
  readable : List Region
  /-- The platform's writable set, behind ADMIT_W (R52). -/
  writable : List Region
  deriving DecidableEq, Repr

/-- The platform of State.reset: ADDR_W = 64 by the spec's decision (R9); the launch memory is the one of
spec/95_test_vectors.md's common test set-up, and the window stands at 0. DESIGN CHOICE, unsafe: log entry 4. -/
def Config.defaultPlatform : Platform where
  addrW := 64
  blockBase := 0
  readable := [⟨0x1000, 0x1000⟩]
  writable := [⟨0x1000, 0x1000⟩]

end Sys2Proof
end

