-- ==== Sys2Proof/Machine/Float32.lean ====
section
/-!
DEFINITION. Binary32 addition (spec/40_vector_add.md R83 to R90).

The exact arithmetic of R84 and R85 is done in units of 2^-149: the value of every finite datum is a whole number of those
units, so a sum is an Int and nothing is lost. DEDUCED, safe: log entry 10.
-/

namespace Sys2Proof.Machine

/-- The sign bit s = x[31] (R83). -/
def f32Sign (x : Bits32) : Bool := x.getLsbD 31

/-- The biased exponent e = x[30:23] (R83). -/
def f32Exp (x : Bits32) : Nat := (x.extractLsb' 23 8).toNat

/-- The fraction f = x[22:0] (R83). -/
def f32Frac (x : Bits32) : Nat := (x.extractLsb' 0 23).toNat

/-- x is a NaN (R83). -/
def isNaN (x : Bits32) : Bool := decide (f32Exp x = 255) && decide (f32Frac x ≠ 0)

/-- x is an infinity (R83). -/
def isInf (x : Bits32) : Bool := decide (f32Exp x = 255) && decide (f32Frac x = 0)

/-- x is a quiet NaN: a NaN with f[22] = 1 (R83). -/
def isQNaN (x : Bits32) : Bool := isNaN x && x.getLsbD 22

/-- x is zero, subnormal or normal (R83). -/
def isFinite (x : Bits32) : Bool := decide (f32Exp x ≠ 255)

/-- |val(x)| of a finite datum in units of 2^-149: f for e = 0, and (2^23 + f) * 2^(e-1) otherwise (R83). -/
def f32Mag (x : Bits32) : Nat :=
  if f32Exp x = 0 then f32Frac x else (2 ^ 23 + f32Frac x) * 2 ^ (f32Exp x - 1)

/-- val(x) of a finite datum in units of 2^-149 (R83). -/
def f32Units (x : Bits32) : Int := if f32Sign x then -(f32Mag x : Int) else (f32Mag x : Int)

/-- NAN_PROP (R86): some quiet NaN, a function of the two operands alone. The bits that L1 leaves open are
`Config.nanBits`, of which nothing is known; every quiet NaN is possible. Log entry 5. -/
def nanProp (a b : Bits32) : Bits32 := Config.nanBits a b ||| 0x7FC00000#32

/-- The whole number nearest to m / 2^k, an exact half going to the even one (R85). -/
def roundTiesToEven (m k : Nat) : Nat :=
  let low := m / 2 ^ k
  let rest := m % 2 ^ k
  if 2 * rest < 2 ^ k then low
  else if 2 ^ k < 2 * rest then low + 1
  else low + low % 2

/-- The significand n and the shift k of R85 after the carry step, for a magnitude m in units of 2^-149: k = q + 126, so
k = 0 is the clamped exponent q = -126. -/
def roundSignificand (m : Nat) : Nat × Nat :=
  let k := m.log2 - 23
  let n := roundTiesToEven m k
  if n = 2 ^ 24 then (2 ^ 23, k + 1) else (n, k)

/-- The sign bit of a result (R85). -/
def signWord (negative : Bool) : Bits32 := if negative then 0x80000000#32 else 0x00000000#32

/-- roundPack (R85) of a nonzero sum in units of 2^-149: overflow to an infinity when q > 127, a subnormal result when
n < 2^23, a normal one with biased exponent q + 127 = k + 1 otherwise. -/
def roundPack (x : Int) : Bits32 :=
  let s := signWord (decide (x < 0))
  let nk := roundSignificand x.natAbs
  if 253 < nk.2 then s ||| 0x7F800000#32
  else if nk.1 < 2 ^ 23 then s ||| BitVec.ofNat 32 nk.1
  else s ||| BitVec.ofNat 32 ((nk.2 + 1) * 2 ^ 23) ||| BitVec.ofNat 32 (nk.1 - 2 ^ 23)

/-- fadd32 (R84). -/
def fadd32 (a b : Bits32) : Bits32 :=
  if isNaN a || isNaN b then nanProp a b
  else if isInf a && isInf b && (f32Sign a != f32Sign b) then nanProp a b
  else if isInf a then a
  else if isInf b then b
  else
    let x := f32Units a + f32Units b
    if x = 0 then (if f32Sign a && f32Sign b then 0x80000000#32 else 0x00000000#32)
    else roundPack x

end Sys2Proof.Machine
end

