-- ==== Sys2Proof/Syntax/HostOp.lean ====
section
/-!
DEFINITION. The operations of the host (spec/30_encoding.md R79, R81; spec/42_host_access.md R111): what a host program is
a list of, and the names of the registers of the window (spec/10_state.md R20).
-/

namespace Sys2Proof

/-- The registers of the window (R20). -/
inductive BlockReg where
  | cmd | status | kcount | dstPtr | aPtr | bPtr
  deriving DecidableEq, Repr

/-- One operation of the host. A register access carries its offset from BLOCK_BASE, its width in bits and the value
written (R81); every offset and width can be written down, the illegal ones of R113 included. -/
inductive HostOp where
  /-- A register read: `rd32`, `rd64`, or a read of another width. -/
  | regRead (offset width : Nat)
  /-- A register write: `wr32`, `wr64`, or a write of another width; the value stands in the low `width` bits. -/
  | regWrite (offset width : Nat) (value : Bits64)
  /-- A direct read of `count` bytes of memory, no block operation (R111). -/
  | memRead (addr count : Nat)
  /-- A direct write of bytes to memory, no block operation (R111, R50). -/
  | memWrite (addr : Nat) (bytes : List Byte)
  /-- The platform asserts the reset input between two commands (R141, R143). -/
  | reset
  deriving DecidableEq, Repr

/-- What a host read has returned (R81: the value of a read transaction). -/
inductive HostReply where
  | reg (offset width : Nat) (value : Bits64)
  | mem (addr : Nat) (bytes : List Byte)
  deriving DecidableEq, Repr

end Sys2Proof
end

