-- ==== Sys2Proof/Machine/State.lean ====
section
/-!
DEFINITION. The state of the machine (spec/10_state.md R20 to R44), the reasons a step can stop
(spec/60_exceptions.md R127), and the state after reset (R43, R142).
-/

namespace Sys2Proof.Machine

/-- The model faults (R15, R127): the spec's own stops, which the hardware neither detects nor reports; a fault ends the run
(R128). Each is safe: nothing can be claimed of a run after the contract is broken. -/
inductive Fault where
  /-- F_UNWRITTEN_PTR: a command or the host reads a pointer register whose flag `written(P)` is false (R12, R33, R103, R122;
  R127's table of faults; D15, U10). The flag is the spec's state, cleared by every reset, and the fault is the spec's. Safe. -/
  | unwrittenPtr
  /-- F_MISALIGNED: a pointer of a command is not a multiple of 4*W (R53, R91, R104). Safe. -/
  | misaligned
  /-- F_OOB: a range of a command passes 2^ADDR_W or is not admitted (R52). Safe. -/
  | oob
  /-- F_OVERLAP: the destination partly overlaps an operand (R54, R104). Safe. -/
  | overlap
  /-- F_REG_ACCESS: an illegal access to the register window (R113), or a direct memory access of the host that touches the
  window's addresses (log entry 9). Safe. -/
  | regAccess
  /-- The model's own: a direct memory access of the host at or above 2^ADDR_W, where no memory exists (R45; log entry 9).
  Safe. -/
  | hostAddress
  deriving DecidableEq, Repr

/-- What the model gives no meaning. -/
inductive Refusal where
  /-- exec answers it for an instruction that has no meaning yet; no arm does. Safe. -/
  | notModelled (mnemonic : String)
  deriving DecidableEq, Repr

/-- The hardware-reported errors (R15): STATUS bits, not faults. -/
inductive HwError where
  /-- ERR_CMD, a reserved command word (R124). -/
  | errCmd
  /-- ERR_MODE, an unsupported mode (R125). -/
  | errMode
  deriving DecidableEq, Repr

/-- A pointer register: its 64 bits and the flag `written(P)` of R33. -/
structure PtrReg where
  value : Bits64
  written : Bool
  deriving DecidableEq, Repr

/-- Which pointer register (R30, R31, R32). -/
inductive PtrName where
  | dst | a | b
  deriving DecidableEq, Repr

/-- The block's registers (R44). The reserved bits of STATUS read as zero and are not stored (R28). -/
structure Block where
  /-- CMD: the last command word written (R23). -/
  cmd : Bits32
  /-- STATUS.DONE (R25). -/
  done : Bool
  /-- STATUS.ERR_MODE (R26). -/
  errMode : Bool
  /-- STATUS.ERR_CMD (R27). -/
  errCmd : Bool
  /-- KCOUNT: the kernel invocations of the last command (R29). -/
  kcount : Bits32
  /-- DST_PTR (R30). -/
  dstPtr : PtrReg
  /-- A_PTR (R31). -/
  aPtr : PtrReg
  /-- B_PTR (R32). -/
  bPtr : PtrReg
  deriving DecidableEq, Repr

/-- Memory (R42): the bytes that differ from `Config.unlistedByte`, by rising address. -/
abbrev Memory := List Host.Cell

/-- The machine: the block, the memory it shares with the host, the platform's parameters, and the host agent's side (the
operations it has yet to perform and what its reads have returned, oldest first). -/
structure State where
  block : Block
  mem : Memory
  platform : Platform
  pending : List HostOp
  replies : List HostReply
  deriving DecidableEq, Repr

/-- A pointer register after reset: unwritten (R43). Its value is unspecified in the spec and zero here.
DESIGN CHOICE, unsafe: log entry 1. -/
def PtrReg.reset : PtrReg := ⟨0, false⟩

/-- The block's registers after reset (R43, R142). -/
def Block.reset : Block where
  cmd := 0
  done := false
  errMode := false
  errCmd := false
  kcount := 0
  dstPtr := PtrReg.reset
  aPtr := PtrReg.reset
  bPtr := PtrReg.reset

/-- The machine right after reset: the block as R43 says, memory with nothing listed, the platform of log entry 4, and no
host operation waiting (log entry 6). -/
def State.reset : State where
  block := Block.reset
  mem := []
  platform := Config.defaultPlatform
  pending := []
  replies := []

end Sys2Proof.Machine
end

