-- ==== Sys2Proof/Machine/Ops.lean ====
section
/-!
DEFINITION. The named operations: memory by byte and by element (spec/20_memory.md), the checks of a command's pointers
(R51 to R54, R91, R104), and the reporting of a hardware error (spec/60_exceptions.md R126), which is all the exception
entry this hardware has; there is no return from it (R132, R133).
-/

namespace Sys2Proof.Machine

/-! ### Memory -/

/-- The byte at an address. -/
def Memory.readByte : Memory → Nat → Byte
  | [], _ => Config.unlistedByte
  | (b, v) :: rest, a => if a = b then v else Memory.readByte rest a

/-- The memory without an entry for an address. -/
def Memory.eraseAt (m : Memory) (a : Nat) : Memory := m.filter fun c => c.1 ≠ a

/-- The memory with one more entry, put before the first higher address. -/
def Memory.insertAt (a : Nat) (v : Byte) : Memory → Memory
  | [] => [(a, v)]
  | (b, w) :: rest => if a < b then (a, v) :: (b, w) :: rest else (b, w) :: Memory.insertAt a v rest

/-- Store a byte; storing what an unlisted address reads as leaves no entry. -/
def Memory.writeByte (m : Memory) (a : Nat) (v : Byte) : Memory :=
  if v = Config.unlistedByte then m.eraseAt a else Memory.insertAt a v (m.eraseAt a)

/-- The canonical form: addresses strictly rising, and no entry equal to what an unlisted address reads as. -/
def Memory.wf : Memory → Bool
  | [] => true
  | [(_, v)] => v != Config.unlistedByte
  | (a, v) :: (b, w) :: rest => decide (a < b) && v != Config.unlistedByte && Memory.wf ((b, w) :: rest)

/-- Every listed address lies below a bound. -/
def Memory.below (m : Memory) (bound : Nat) : Bool := m.all fun c => decide (c.1 < bound)

/-- The bytes at addresses a .. a+n-1. -/
def Memory.readBytes (m : Memory) : Nat → Nat → List Byte
  | _, 0 => []
  | a, n + 1 => m.readByte a :: Memory.readBytes m (a + 1) n

/-- Store bytes at addresses a, a+1, ... -/
def Memory.writeBytes (m : Memory) : Nat → List Byte → Memory
  | _, [] => m
  | a, v :: vs => Memory.writeBytes (m.writeByte a v) (a + 1) vs

/-- MemRead(p, 4): the element at byte address p, little-endian (R13, R49). -/
def Memory.readElem (m : Memory) (p : Nat) : Bits32 :=
  m.readByte (p + 3) ++ m.readByte (p + 2) ++ m.readByte (p + 1) ++ m.readByte p

/-- The four bytes of an element, lowest address first (R49). -/
def elemBytes (v : Bits32) : List Byte :=
  [v.extractLsb' 0 8, v.extractLsb' 8 8, v.extractLsb' 16 8, v.extractLsb' 24 8]

/-- MemWrite(p, 4, v) (R13, R49). -/
def Memory.writeElem (m : Memory) (p : Nat) (v : Bits32) : Memory := m.writeBytes p (elemBytes v)

/-- Elements 0 .. n-1 of the FloatVector at p: element i at p + 4*i (R48). -/
def Memory.readElems (m : Memory) : Nat → Nat → List Bits32
  | _, 0 => []
  | p, n + 1 => m.readElem p :: Memory.readElems m (p + 4) n

/-- Store elements 0, 1, ... of the FloatVector at p (R48). -/
def Memory.writeElems (m : Memory) : Nat → List Bits32 → Memory
  | _, [] => m
  | p, v :: vs => Memory.writeElems (m.writeElem p v) (p + 4) vs

/-! ### The address space and admission -/

/-- The region holds the byte address. -/
def inRegion (a : Nat) (r : Region) : Bool := decide (r.base ≤ a) && decide (a < r.base + r.size)

/-- The byte address is one of the register window's (R20, R21). -/
def inWindow (p : Platform) (a : Nat) : Bool :=
  decide (p.blockBase.toNat ≤ a) && decide (a < p.blockBase.toNat + Config.windowBytes)

/-- The block may read the byte: it is in the readable set (R52) and not of the window, which no command reaches (R46). -/
def readableByte (p : Platform) (a : Nat) : Bool := p.readable.any (inRegion a) && !inWindow p a

/-- The block may write the byte (R46, R52). -/
def writableByte (p : Platform) (a : Nat) : Bool := p.writable.any (inRegion a) && !inWindow p a

/-- The n bytes from a all satisfy a test. -/
def allBytes (test : Nat → Bool) (a n : Nat) : Bool := (List.range n).all fun k => test (a + k)

/-- ADMIT_R(a, n), byte by byte (R52). -/
def admitR (p : Platform) (a n : Nat) : Bool := allBytes (readableByte p) a n

/-- ADMIT_W(a, n), byte by byte (R52). -/
def admitW (p : Platform) (a n : Nat) : Bool := allBytes (writableByte p) a n

/-- The range a .. a+n-1 does not pass the top of the address space (R11, R52). -/
def inSpace (p : Platform) (a n : Nat) : Bool := decide (a + n ≤ 2 ^ p.addrW)

/-- The range a .. a+n-1 holds an address of the window. -/
def touchesWindow (p : Platform) (a n : Nat) : Bool :=
  decide (0 < n) && decide (p.blockBase.toNat < a + n) && decide (a < p.blockBase.toNat + Config.windowBytes)

/-! ### The checks of a command's pointers -/

/-- All three pointers are multiples of `align` (R51). -/
def aligned (align d pa pb : Nat) : Bool :=
  decide (d % align = 0) && decide (pa % align = 0) && decide (pb % align = 0)

/-- The three ranges of `size` bytes are in the address space and admitted (R52). -/
def inBounds (p : Platform) (size d pa pb : Nat) : Bool :=
  (inSpace p pa size && admitR p pa size) && (inSpace p pb size && admitR p pb size) &&
    (inSpace p d size && admitW p d size)

/-- Two ranges of `size` bytes overlap without being identical (R54, R91). -/
def partlyOverlaps (size d q : Nat) : Bool :=
  decide (q ≠ d) && decide (q < d + size) && decide (d < q + size)

/-- The first check that fails, in the order of R91, R104 and R129: alignment, range and admission, overlap.
A kernel of width W checks 4*W bytes at alignment 4*W (R91); a DISPATCH checks 64 bytes at alignment 4*W (R104). -/
def pointerFault (p : Platform) (align size d pa pb : Nat) : Option Fault :=
  if !aligned align d pa pb then some .misaligned
  else if !inBounds p size d pa pb then some .oob
  else if partlyOverlaps size d pa || partlyOverlaps size d pb then some .overlap
  else none

/-! ### Command bookkeeping and hardware errors -/

/-- What every command does first: ERR_MODE, ERR_CMD and KCOUNT are cleared (R95, R101, R115). -/
def State.beginCommand (s : State) : State :=
  { s with block := { s.block with errMode := false, errCmd := false, kcount := 0 } }

/-- Acceptance of a CMD write: the word is recorded and the error bits and KCOUNT are cleared (R22, R115). -/
def State.acceptCommand (s : State) (w : Bits32) : State :=
  { s with block := { s.block with cmd := w, errMode := false, errCmd := false, kcount := 0 } }

/-- Completion: STATUS.DONE is set (R25). -/
def State.completeCommand (s : State) : State := { s with block := { s.block with done := true } }

/-- One more kernel invocation (R29, R91). -/
def State.countInvocation (s : State) : State :=
  { s with block := { s.block with kcount := s.block.kcount + 1 } }

/-- A hardware-reported error ends the command: its STATUS bit and DONE are set, and nothing else changes
(R15, R126). -/
def State.raiseError (e : HwError) (s : State) : State :=
  match e with
  | .errCmd => { s with block := { s.block with errCmd := true, done := true } }
  | .errMode => { s with block := { s.block with errMode := true, done := true } }

/-- The block's reset: its registers take their reset values, and memory is not touched (R142, R144). -/
def State.resetBlock (s : State) : State := { s with block := Block.reset }

/-- The outcome of an operation that may fault. -/
def outcomeOf : Except Fault State → Host.Outcome State Fault Refusal
  | .ok s => .next s
  | .error f => .fault f

end Sys2Proof.Machine
end

