-- ==== Sys2Proof/Machine/Operands.lean ====
section
/-!
DEFINITION. The operands of the commands (spec/30_encoding.md R74): the three pointer registers, and the mode of a DISPATCH.
-/

namespace Sys2Proof.Machine

/-- Reading a pointer register: the read of an unwritten one is F_UNWRITTEN_PTR, a stop the spec itself decides
(spec/10_state.md R33, spec/60_exceptions.md R127, spec/92_eei_decisions.md D15, spec/93_implementation_defined.md U10). -/
def PtrReg.read (r : PtrReg) : Except Fault Bits64 :=
  if r.written then .ok r.value else .error .unwrittenPtr

/-- Writing a pointer register: every value is stored as written, with no check (R30, R121). -/
def State.writePtr (s : State) (r : PtrName) (v : Bits64) : State :=
  match r with
  | .dst => { s with block := { s.block with dstPtr := ⟨v, true⟩ } }
  | .a => { s with block := { s.block with aPtr := ⟨v, true⟩ } }
  | .b => { s with block := { s.block with bPtr := ⟨v, true⟩ } }

/-- The three byte addresses of a command's operands (R74). -/
structure Pointers where
  dst : Nat
  a : Nat
  b : Nat
  deriving DecidableEq, Repr

/-- Reading the three pointer registers for a command: F_UNWRITTEN_PTR if any is unwritten (the pseudocode of R95 and R101,
and R103). -/
def State.readPointers (s : State) : Except Fault Pointers :=
  match s.block.dstPtr.read, s.block.aPtr.read, s.block.bPtr.read with
  | .ok d, .ok a, .ok b => .ok ⟨d.toNat, a.toNat, b.toNat⟩
  | _, _, _ => .error .unwrittenPtr

/-- The width a mode selects, and none for the unsupported mode (R72, R100). -/
def selectWidth : Mode → Option Nat
  | .narrow => some 4
  | .medium => some 8
  | .wide => some 16
  | .unsupported => none

end Sys2Proof.Machine
end

