-- ==== Sys2Proof/Machine/VectorAdd.lean ====
section
/-!
DEFINITION. The kernel (spec/40_vector_add.md R91) and the three VADD commands (R95, R96, R97).
-/

namespace Sys2Proof.Machine

/-- The sums VR[0..W) of the operand elements at pa and pb (R91 step 4, R92): both latches are filled before a sum is
taken. -/
def laneSums (W : Nat) (m : Memory) (pa pb : Nat) : List Bits32 :=
  List.zipWith fadd32 (m.readElems pa W) (m.readElems pb W)

/-- The kernel of width W (R91): the checks, then every operand read, then the additions, then the writes, then the
count. -/
def kernel (W d pa pb : Nat) (s : State) : Except Fault State :=
  match pointerFault s.platform (4 * W) (4 * W) d pa pb with
  | some f => .error f
  | none => .ok ({ s with mem := s.mem.writeElems d (laneSums W s.mem pa pb) }).countInvocation

/-- A VADD command of width W (R95). -/
def vadd (W : Nat) (s : State) : Except Fault State :=
  match s.beginCommand.readPointers with
  | .error f => .error f
  | .ok p =>
    match kernel W p.dst p.a p.b s.beginCommand with
    | .error f => .error f
    | .ok t => .ok t.completeCommand

/-- `vadd4`: fp_vector_adder_4w (R95). -/
def execVadd4 (s : State) : Host.Outcome State Fault Refusal := outcomeOf (vadd 4 s)

/-- `vadd8`: fp_vector_adder_8w (R96). -/
def execVadd8 (s : State) : Host.Outcome State Fault Refusal := outcomeOf (vadd 8 s)

/-- `vadd16`: fp_vector_adder_16w (R97). -/
def execVadd16 (s : State) : Host.Outcome State Fault Refusal := outcomeOf (vadd 16 s)

end Sys2Proof.Machine
end

