-- ==== Sys2Proof/Machine/KernelDispatcher.lean ====
section
/-!
DEFINITION. The dispatcher (spec/41_dispatch.md): mode validation, the whole-array checks, and the chunk loop.
-/

namespace Sys2Proof.Machine

/-- The values OFFSET takes: 0, W, 2W, ... below 16, so 16/W of them (R104, R105, R106). -/
def chunkOffsets (W : Nat) : List Nat := (List.range (Config.arrayLen / W)).map fun k => W * k

/-- The invocations of the kernel of width W at the given element offsets, one after another (R104, R105). -/
def runChunks (W d pa pb : Nat) : List Nat → State → Except Fault State
  | [], s => .ok s
  | offset :: rest, s =>
    match kernel W (d + 4 * offset) (pa + 4 * offset) (pb + 4 * offset) s with
    | .error f => .error f
    | .ok t => runChunks W d pa pb rest t

/-- A DISPATCH of width W: the pointers, check_arrays over the 64-byte arrays, the chunk loop, completion
(R101, R103, R104). -/
def dispatchWidth (W : Nat) (s : State) : Except Fault State :=
  match s.readPointers with
  | .error f => .error f
  | .ok p =>
    match pointerFault s.platform (4 * W) (4 * Config.arrayLen) p.dst p.a p.b with
    | some f => .error f
    | none =>
      match runChunks W p.dst p.a p.b (chunkOffsets W) s with
      | .error f => .error f
      | .ok t => .ok t.completeCommand

/-- `dispatch <mode>`: kernel_dispatcher (R101). The mode is validated before anything else (R102). -/
def execDispatch (mode : Mode) (s : State) : Host.Outcome State Fault Refusal :=
  match selectWidth mode with
  | none => .next (s.beginCommand.raiseError .errMode)
  | some W => outcomeOf (dispatchWidth W s.beginCommand)

end Sys2Proof.Machine
end

