-- ==== Sys2Proof/Machine/Dispatch.lean ====
section
/-!
DEFINITION. Which meaning each command has (spec/42_host_access.md R115, the case distinction on decode(w)).
-/

namespace Sys2Proof.Machine

def exec (i : Instr) (s : State) : Host.Outcome State Fault Refusal :=
  match i with
  | .vadd4 => Sys2Proof.Machine.execVadd4 s
  | .vadd8 => Sys2Proof.Machine.execVadd8 s
  | .vadd16 => Sys2Proof.Machine.execVadd16 s
  | .dispatch mode => Sys2Proof.Machine.execDispatch mode s

end Sys2Proof.Machine
end

