-- ==== Sys2Proof/Machine/Flags.lean ====
section
/-!
DEFINITION. The STATUS word (spec/10_state.md R24). The block has no condition codes and no floating-point flags: no event
of an addition sets anything (R37, R89).
-/

namespace Sys2Proof.Machine

/-- One bit of a 32-bit word. -/
def statusBit (position : Nat) (b : Bool) : Bits32 := if b then BitVec.ofNat 32 (2 ^ position) else 0

/-- STATUS: DONE at bit 0, ERR_MODE at bit 1, ERR_CMD at bit 2, zeros above (R24, R28, R117). -/
def Block.statusWord (b : Block) : Bits32 :=
  statusBit 0 b.done ||| statusBit 1 b.errMode ||| statusBit 2 b.errCmd

end Sys2Proof.Machine
end

