-- ==== Sys2Proof/Machine/HostAccess.lean ====
section
/-!
DEFINITION. The operations of the host (spec/42_host_access.md): register reads and writes, the CMD write that issues a
command (R115), direct memory access (R111), and the reset input (R141).
-/

namespace Sys2Proof.Machine

/-- The register at an offset for an access of a width: the legal pairs of R112. -/
def selectReg (offset width : Nat) : Option BlockReg :=
  if width = 32 then
    if offset = 0x00 then some .cmd
    else if offset = 0x04 then some .status
    else if offset = 0x08 then some .kcount
    else none
  else if width = 64 then
    if offset = 0x10 then some .dstPtr
    else if offset = 0x18 then some .aPtr
    else if offset = 0x20 then some .bPtr
    else none
  else none

/-- What a read of a register returns, as the low bits of 64 (R116, R117, R119, R122). -/
def Block.readReg (b : Block) : BlockReg → Except Fault Bits64
  | .cmd => .ok (b.cmd.setWidth 64)
  | .status => .ok (b.statusWord.setWidth 64)
  | .kcount => .ok (b.kcount.setWidth 64)
  | .dstPtr => b.dstPtr.read
  | .aPtr => b.aPtr.read
  | .bPtr => b.bPtr.read

/-- The host receives what a read returned. -/
def State.reply (s : State) (r : HostReply) : State := { s with replies := s.replies ++ [r] }

/-- A register read: an illegal one is F_REG_ACCESS (R113), a legal one changes no register (R114). -/
def hostRegRead (offset width : Nat) (s : State) : Host.Outcome State Fault Refusal :=
  match selectReg offset width with
  | none => .fault .regAccess
  | some r =>
    match s.block.readReg r with
    | .error f => .fault f
    | .ok v => .next (s.reply (.reg offset width v))

/-- A CMD write: acceptance, decode, and the command as one step (R115). A reserved word raises ERR_CMD (R124). -/
def issueCommand (w : Bits32) (s : State) : Host.Outcome State Fault Refusal :=
  match decode w with
  | .error _ => .next ((s.acceptCommand w).raiseError .errCmd)
  | .ok i => exec i (s.acceptCommand w)

/-- A register write: CMD issues a command (R115), STATUS and KCOUNT ignore it (R118, R120), a pointer register takes it
(R121), and an illegal one is F_REG_ACCESS (R113). -/
def hostRegWrite (offset width : Nat) (v : Bits64) (s : State) : Host.Outcome State Fault Refusal :=
  match selectReg offset width with
  | none => .fault .regAccess
  | some .cmd => issueCommand (v.setWidth 32) s
  | some .status => .next s
  | some .kcount => .next s
  | some .dstPtr => .next (s.writePtr .dst v)
  | some .aPtr => .next (s.writePtr .a v)
  | some .bPtr => .next (s.writePtr .b v)

/-- Why a direct memory access of the host has no meaning, if it has none: no memory at or above 2^ADDR_W (R45), and the
window's addresses are registers (R46, R113). Log entry 9. -/
def hostMemFault (p : Platform) (a n : Nat) : Option Fault :=
  if !inSpace p a n then some .hostAddress
  else if touchesWindow p a n then some .regAccess
  else none

/-- A direct read of memory by the host (R111). -/
def hostMemRead (a n : Nat) (s : State) : Host.Outcome State Fault Refusal :=
  match hostMemFault s.platform a n with
  | some f => .fault f
  | none => .next (s.reply (.mem a (s.mem.readBytes a n)))

/-- A direct write of memory by the host (R50, R111). -/
def hostMemWrite (a : Nat) (bytes : List Byte) (s : State) : Host.Outcome State Fault Refusal :=
  match hostMemFault s.platform a bytes.length with
  | some f => .fault f
  | none => .next { s with mem := s.mem.writeBytes a bytes }

/-- One operation of the host, as one atomic step (R111). -/
def performHostOp (op : HostOp) (s : State) : Host.Outcome State Fault Refusal :=
  match op with
  | .regRead offset width => hostRegRead offset width s
  | .regWrite offset width v => hostRegWrite offset width v s
  | .memRead a n => hostMemRead a n s
  | .memWrite a bytes => hostMemWrite a bytes s
  | .reset => .next s.resetBlock

/-- The offset of a register in the window (R20). -/
def regOffset : BlockReg → Nat
  | .cmd => 0x00
  | .status => 0x04
  | .kcount => 0x08
  | .dstPtr => 0x10
  | .aPtr => 0x18
  | .bPtr => 0x20

/-- `rd32 <reg>` (R79). -/
def rd32 (r : BlockReg) : HostOp := .regRead (regOffset r) 32

/-- `rd64 <reg>` (R79). -/
def rd64 (r : BlockReg) : HostOp := .regRead (regOffset r) 64

/-- `wr32 <reg>, <value>` (R79). -/
def wr32 (r : BlockReg) (v : Bits32) : HostOp := .regWrite (regOffset r) 32 (v.setWidth 64)

/-- `wr64 <reg>, <value>` (R79). -/
def wr64 (r : BlockReg) (v : Bits64) : HostOp := .regWrite (regOffset r) 64 v

/-- `issue .cmd <hex32>`: the given word, reserved words included (R78, R79). -/
def issueWord (w : Bits32) : HostOp := wr32 .cmd w

/-- `issue <command>` (R79). -/
def issue (i : Instr) : HostOp := issueWord (encode i)

/-- `dispatch.raw <m>` (R78). -/
def dispatchRaw (m : BitVec 2) : Instr := .dispatch (Mode.ofBits m)

/-- `mem.f32 <addr>: v0, v1, ...` as a direct write of the elements' bytes (R79, R50). -/
def memF32 (a : Nat) (vs : List Bits32) : HostOp := .memWrite a (vs.flatMap elemBytes)

end Sys2Proof.Machine
end

