-- ==== Sys2Proof/Machine/Step.lean ====
section
/-!
DEFINITION. One step of the machine (spec/20_memory.md R61): the next operation of the host, with the whole command that a
CMD write issues. The block fetches nothing (R38, R64): a command arrives as the next host operation.
-/

namespace Sys2Proof.Machine

/-- One step: the next operation of the host. That there is a step with no operation left, and that it keeps the state, is the
model's own: DESIGN CHOICE, safe, log entry 6; the block itself holds its state until the next host access (R140). -/
def step (s : State) : Host.Outcome State Fault Refusal :=
  match s.pending with
  | [] => .next s
  | op :: rest => performHostOp op { s with pending := rest }

/-- The state whose next host operation is the write of a command word to CMD, the bits above `nbits` zero (R67, R115). -/
def State.withFetchWord (s : State) (nbits w : Nat) : State :=
  { s with pending := .regWrite 0x00 32 (BitVec.ofNat 64 (w % 2 ^ nbits)) :: s.pending }

end Sys2Proof.Machine
end

