-- ==== Sys2Proof/Safety.lean ====
section
/-!
DEFINITION. The terms of the claims: the caller's contract (spec/70_reset_and_hazards.md R153), the invariant of the machine
(spec/10_state.md R24 to R29; spec/60_exceptions.md R123), and what a frame keeps.
-/

namespace Sys2Proof.Machine

/-- All three pointer registers have been written since reset (R33). -/
def Block.pointersWritten (b : Block) : Prop :=
  b.dstPtr.written = true ∧ b.aPtr.written = true ∧ b.bPtr.written = true

/-- The byte address in DST_PTR. -/
def State.dstAddr (s : State) : Nat := s.block.dstPtr.value.toNat

/-- The byte address in A_PTR. -/
def State.aAddr (s : State) : Nat := s.block.aPtr.value.toNat

/-- The byte address in B_PTR. -/
def State.bAddr (s : State) : Nat := s.block.bPtr.value.toNat

/-- The three pointers are multiples of `align` (R51). -/
def State.pointersAligned (s : State) (align : Nat) : Prop :=
  align ∣ s.dstAddr ∧ align ∣ s.aAddr ∧ align ∣ s.bAddr

/-- Every byte of the range may be read by the block: below 2^ADDR_W, in a readable region, and not of the window
(R46, R52). -/
def Platform.mayRead (p : Platform) (a n : Nat) : Prop :=
  a + n ≤ 2 ^ p.addrW ∧ ∀ x, a ≤ x → x < a + n →
    (∃ r ∈ p.readable, r.base ≤ x ∧ x < r.base + r.size) ∧
      ¬ (p.blockBase.toNat ≤ x ∧ x < p.blockBase.toNat + 0x40)

/-- Every byte of the range may be written by the block (R46, R52). -/
def Platform.mayWrite (p : Platform) (a n : Nat) : Prop :=
  a + n ≤ 2 ^ p.addrW ∧ ∀ x, a ≤ x → x < a + n →
    (∃ r ∈ p.writable, r.base ≤ x ∧ x < r.base + r.size) ∧
      ¬ (p.blockBase.toNat ≤ x ∧ x < p.blockBase.toNat + 0x40)

/-- The three ranges of `size` bytes are in the address space and admitted (R52). -/
def State.pointersAdmitted (s : State) (size : Nat) : Prop :=
  Platform.mayRead s.platform s.aAddr size ∧ Platform.mayRead s.platform s.bAddr size ∧
    Platform.mayWrite s.platform s.dstAddr size

/-- The ranges [d, d + size) and [q, q + size) are identical or disjoint (R54). -/
def sameOrDisjoint (size d q : Nat) : Prop := q = d ∨ d + size ≤ q ∨ q + size ≤ d

/-- The destination is identical to or disjoint from each operand (R54). -/
def State.noPartialOverlap (s : State) (size : Nat) : Prop :=
  sameOrDisjoint size s.dstAddr s.aAddr ∧ sameOrDisjoint size s.dstAddr s.bAddr

/-- The caller's contract of a command (R153) that checks `size` bytes at alignment `align`: 4*W and 4*W for a VADD of
width W (R91), 4*W and 64 for a DISPATCH of width W (R104). -/
def State.contract (s : State) (align size : Nat) : Prop :=
  s.block.pointersWritten ∧ s.pointersAligned align ∧ s.pointersAdmitted size ∧ s.noPartialOverlap size

/-- What the last accepted word leaves in ERR_MODE, ERR_CMD and KCOUNT (R26, R27, R29, R123). -/
def reportOf (w : Bits32) : Bool × Bool × Bits32 :=
  match decode w with
  | .error _ => (false, true, 0)
  | .ok .vadd4 | .ok .vadd8 | .ok .vadd16 => (false, false, 1)
  | .ok (.dispatch .narrow) => (false, false, 4)
  | .ok (.dispatch .medium) => (false, false, 2)
  | .ok (.dispatch .wide) => (false, false, 1)
  | .ok (.dispatch .unsupported) => (true, false, 0)

/-- CMD, STATUS and KCOUNT agree: nothing is recorded before the first command, and afterwards ERR_MODE, ERR_CMD and KCOUNT
are those of the word in CMD (R23, R25, R26, R27, R29). -/
def Block.consistent (b : Block) : Prop :=
  if b.done then (b.errMode, b.errCmd, b.kcount) = reportOf b.cmd
  else b.cmd = 0 ∧ b.errMode = false ∧ b.errCmd = false ∧ b.kcount = 0

/-- The platform's parameters lie where the spec leaves them open: ADDR_W in 1..64 (R9) and BLOCK_BASE a multiple of 0x40
(R21). -/
def Platform.legal (p : Platform) : Prop := 1 ≤ p.addrW ∧ p.addrW ≤ 64 ∧ 0x40 ∣ p.blockBase.toNat

/-- The invariant of the machine: memory in canonical form and inside the address space (R45), the block's registers in
agreement, the platform legal. -/
def State.Inv (s : State) : Prop :=
  s.mem.wf = true ∧ s.mem.below (2 ^ s.platform.addrW) = true ∧ s.block.consistent ∧ Platform.legal s.platform

/-- Every byte outside the range [a, a + n) reads as before. -/
def keepsOutside (m m' : Memory) (a n : Nat) : Prop := ∀ x, (x < a ∨ a + n ≤ x) → m'.readByte x = m.readByte x

/-- What no command changes: CMD (R23), the pointer registers (R34), the platform, and the host's side. -/
def sameFrame (s t : State) : Prop :=
  t.block.cmd = s.block.cmd ∧ t.block.dstPtr = s.block.dstPtr ∧ t.block.aPtr = s.block.aPtr ∧
    t.block.bPtr = s.block.bPtr ∧ t.platform = s.platform ∧ t.pending = s.pending ∧ t.replies = s.replies

/-- The report of a command that succeeded after k invocations: STATUS = 0x00000001 and KCOUNT = k (R29, R123). -/
def reportsSuccess (t : State) (k : Nat) : Prop :=
  t.block.done = true ∧ t.block.errMode = false ∧ t.block.errCmd = false ∧ t.block.kcount = BitVec.ofNat 32 k

/-- n elements of the destination hold the sums of the operands' elements before the command (R98). -/
def holdsSums (s t : State) (n : Nat) : Prop :=
  ∀ i, i < n → t.mem.readElem (s.dstAddr + 4 * i) =
    fadd32 (s.mem.readElem (s.aAddr + 4 * i)) (s.mem.readElem (s.bAddr + 4 * i))

/-- s with its three pointer registers rewritten by the host to the pointers of `base` moved up by k bytes (R108). -/
def State.movePointers (base : State) (k : Nat) (s : State) : State :=
  ((s.writePtr .dst (base.block.dstPtr.value + BitVec.ofNat 64 k)).writePtr .a
    (base.block.aPtr.value + BitVec.ofNat 64 k)).writePtr .b (base.block.bPtr.value + BitVec.ofNat 64 k)

end Sys2Proof.Machine
end

