-- ==== Sys2Proof/Certificates/Slice0/Obligations.lean ====
section
/-!
DEFINITION. The statements for the provers. The terms they use (contract, Inv, keepsOutside, sameFrame, reportsSuccess,
holdsSums) are defined in Sys2Proof/Safety.lean.
-/

open Sys2Proof Sys2Proof.Machine

/-! ### The command word -/

/-- The seven command words of R78's table decode to their commands: words written out from R68, R69 and R72, not made by the
encoder. -/
def Obligations.CommandWordsDecode : Prop :=
  decode 0b00000000000000000000000000_00_0001#32 = .ok .vadd4 ∧
  decode 0b00000000000000000000000000_00_0010#32 = .ok .vadd8 ∧
  decode 0b00000000000000000000000000_00_0011#32 = .ok .vadd16 ∧
  decode 0b00000000000000000000000000_00_0100#32 = .ok (.dispatch .narrow) ∧
  decode 0b00000000000000000000000000_01_0100#32 = .ok (.dispatch .medium) ∧
  decode 0b00000000000000000000000000_10_0100#32 = .ok (.dispatch .wide) ∧
  decode 0b00000000000000000000000000_11_0100#32 = .ok (.dispatch .unsupported)

/-- Decoder and encoder agree in both directions: a word decodes to a command exactly when it is that command's word, so the
round trip holds for every command and no second word means the same (R68, R69, R72, R73). -/
def Obligations.DecodeIffEncodedWord : Prop :=
  ∀ (w : Bits32) (i : Instr), decode w = .ok i ↔ w = encode i

/-- R82 and the opcode table: a word decodes to a row's command exactly when it has the row's match value under the row's
mask, and a word that matches no row is reserved. -/
def Obligations.DecodeFollowsOpcodeTable : Prop :=
  ∀ w : Bits32,
    (decode w = .ok .vadd4 ↔ w &&& 0xFFFFFFFF#32 = 0x00000001#32) ∧
    (decode w = .ok .vadd8 ↔ w &&& 0xFFFFFFFF#32 = 0x00000002#32) ∧
    (decode w = .ok .vadd16 ↔ w &&& 0xFFFFFFFF#32 = 0x00000003#32) ∧
    ((∃ m, decode w = .ok (.dispatch m)) ↔ w &&& 0xFFFFFFCF#32 = 0x00000004#32) ∧
    ((∃ r, decode w = .error r) ↔
      w &&& 0xFFFFFFFF#32 ≠ 0x00000001#32 ∧ w &&& 0xFFFFFFFF#32 ≠ 0x00000002#32 ∧
        w &&& 0xFFFFFFFF#32 ≠ 0x00000003#32 ∧ w &&& 0xFFFFFFCF#32 ≠ 0x00000004#32)

/-- R75: which words are reserved (RSVD nonzero, OP 0x0 or 0x5 .. 0xF, or OP 0x1 .. 0x3 with MODE nonzero), and that writing
one to CMD sets ERR_CMD and DONE, leaves KCOUNT 0 and the offending word in CMD, and touches neither memory nor a pointer
register (R124, R126). -/
def Obligations.ReservedWordRaisesErrCmd : Prop :=
  (∀ w : Bits32, (∃ r, decode w = .error r) ↔
    w.toNat / 64 ≠ 0 ∨ w.toNat % 16 = 0 ∨ 5 ≤ w.toNat % 16 ∨ (w.toNat % 16 ≤ 3 ∧ w.toNat / 16 % 4 ≠ 0)) ∧
  (∀ (s : State) (v : Bits64) (rest : List HostOp), s.pending = .regWrite 0x00 32 v :: rest →
    (∃ r, decode (v.setWidth 32) = .error r) →
      ∃ t, step s = .next t ∧ t.block.statusWord = 0x00000005#32 ∧ t.block.errCmd = true ∧ t.block.kcount = 0 ∧
        t.block.cmd = v.setWidth 32 ∧ t.mem = s.mem ∧ t.block.dstPtr = s.block.dstPtr ∧
        t.block.aPtr = s.block.aPtr ∧ t.block.bPtr = s.block.bPtr ∧ t.platform = s.platform ∧ t.pending = rest ∧
        t.replies = s.replies)

/-! ### The step -/

/-- R115: a 32-bit write to CMD is one step. The word is recorded, ERR_MODE, ERR_CMD and KCOUNT are cleared, and then a
reserved word raises ERR_CMD while any other word runs its command, exec, at that state. -/
def Obligations.StepRunsDecodedCommand : Prop :=
  ∀ (s : State) (v : Bits64) (rest : List HostOp), s.pending = .regWrite 0x00 32 v :: rest →
    ∀ t : State, t = { s with
        pending := rest
        block := { s.block with cmd := v.setWidth 32, errMode := false, errCmd := false, kcount := 0 } } →
      (∀ i, decode (v.setWidth 32) = .ok i → step s = exec i t) ∧
      (∀ r, decode (v.setWidth 32) = .error r →
        step s = .next { t with block := { t.block with errCmd := true, done := true } })

/-- The model's own choice, log entry 6 (DESIGN CHOICE), and no rule of the spec: with no host operation left there is still
a step, and it answers the same state. The choice follows R140, by which the block holds its state until the next host
access. -/
def Obligations.IdleStepHoldsState : Prop := ∀ s : State, s.pending = [] → step s = .next s

/-! ### VADD4, VADD8, VADD16 -/

/-- A VADD of width W, given by its command, runs to completion on every state that meets the caller's contract: element i of
the destination is fadd32 of the operands' elements i as they were before, every byte outside the destination's 4*W bytes reads
as before, STATUS reads success with KCOUNT 1, and nothing else changes. The contract allows dst = a and dst = b (R93). -/
def Obligations.VaddWritesLaneSums : Prop :=
  ∀ p ∈ [(Instr.vadd4, 4), (.vadd8, 8), (.vadd16, 16)], ∀ s : State, s.contract (4 * p.2) (4 * p.2) →
    ∃ t, exec p.1 s = .next t ∧ holdsSums s t p.2 ∧ keepsOutside s.mem t.mem s.dstAddr (4 * p.2) ∧
      reportsSuccess t 1 ∧ sameFrame s t

/-- The frame of the three VADD commands, in every state where one answers a next state: CMD, the pointer registers, the
platform and the host's side are unchanged, and so is every byte outside the 4*W bytes at DST_PTR (R34, R55). -/
def Obligations.VaddFrame : Prop :=
  ∀ p ∈ [(Instr.vadd4, 16), (.vadd8, 32), (.vadd16, 64)], ∀ s t : State, exec p.1 s = .next t →
    sameFrame s t ∧ keepsOutside s.mem t.mem s.dstAddr p.2

/-- A command completes exactly when the caller's contract of R153 holds: 4*W bytes at alignment 4*W for a VADD (R91), 64
bytes at alignment 4*W for a DISPATCH (R104). -/
def Obligations.CommandCompletesIffContract : Prop :=
  ∀ p ∈ [(Instr.vadd4, 16, 16), (.vadd8, 32, 32), (.vadd16, 64, 64), (.dispatch .narrow, 16, 64),
      (.dispatch .medium, 32, 64), (.dispatch .wide, 64, 64)],
    ∀ s : State, (∃ t, exec p.1 s = .next t) ↔ s.contract p.2.1 p.2.2

/-- R94: the lanes of a VADD may run one at a time in any order, each reading its operand elements from the memory the
earlier lanes have left, and every byte of the final memory is the same. -/
def Obligations.LaneOrderIsImmaterial : Prop :=
  ∀ p ∈ [(Instr.vadd4, 4), (.vadd8, 8), (.vadd16, 16)], ∀ s : State, s.contract (4 * p.2) (4 * p.2) →
    ∃ t, exec p.1 s = .next t ∧ ∀ lanes : List Nat, lanes.Perm (List.range p.2) → ∀ x : Nat,
      (lanes.foldl (fun m i => m.writeElem (s.dstAddr + 4 * i)
        (fadd32 (m.readElem (s.aAddr + 4 * i)) (m.readElem (s.bAddr + 4 * i)))) s.mem).readByte x = t.mem.readByte x

/-- R58: when the destination is disjoint from both operands, repeating a VADD leaves every byte of memory as the first one
left it. -/
def Obligations.VaddIsIdempotentWhenDisjoint : Prop :=
  ∀ p ∈ [(Instr.vadd4, 16), (.vadd8, 32), (.vadd16, 64)], ∀ s : State, s.contract p.2 p.2 →
    s.dstAddr ≠ s.aAddr → s.dstAddr ≠ s.bAddr →
      ∃ t u, exec p.1 s = .next t ∧ exec p.1 t = .next u ∧ ∀ x, u.mem.readByte x = t.mem.readByte x

/-! ### DISPATCH -/

/-- A DISPATCH of width W runs to completion on every state that meets its contract: all 16 sums, KCOUNT = 16/W, every byte
outside the 64-byte result array as before, nothing else changed (R101, R104, R105, R106). -/
def Obligations.DispatchWritesArraySums : Prop :=
  ∀ p ∈ [(Mode.narrow, 4), (.medium, 8), (.wide, 16)], ∀ s : State, s.contract (4 * p.2) 64 →
    ∃ t, exec (.dispatch p.1) s = .next t ∧ holdsSums s t 16 ∧ keepsOutside s.mem t.mem s.dstAddr 64 ∧
      reportsSuccess t (16 / p.2) ∧ sameFrame s t

/-- R102: a DISPATCH of the unsupported mode, in every state whatever its pointers, sets ERR_MODE and DONE, leaves KCOUNT 0,
and changes nothing else. -/
def Obligations.UnsupportedModeRaisesErrMode : Prop :=
  ∀ s : State, exec (.dispatch .unsupported) s =
    .next { s with block := { s.block with errMode := true, errCmd := false, kcount := 0, done := true } }

/-- R109: issuing the word 0x00000034 from any state leaves STATUS = 0x00000003, KCOUNT = 0 and memory unchanged. -/
def Obligations.InvalidModeScenario : Prop :=
  ∀ (s : State) (rest : List HostOp), s.pending = .regWrite 0x00 32 0x00000034#64 :: rest →
    ∃ t, step s = .next t ∧ t.block.statusWord = 0x00000003#32 ∧ t.block.kcount = 0 ∧
      t.block.cmd = 0x00000034#32 ∧ t.mem = s.mem

/-- The frame of DISPATCH in every mode, in every state where it answers a next state: CMD, the pointer registers, the
platform and the host's side are unchanged, and so is every byte outside the 64 bytes at DST_PTR; in the unsupported mode, all
of memory (R34, R55, R102). -/
def Obligations.DispatchFrame : Prop :=
  ∀ (mode : Mode) (s t : State), exec (.dispatch mode) s = .next t →
    sameFrame s t ∧ keepsOutside s.mem t.mem s.dstAddr 64 ∧ (mode = .unsupported → t.mem = s.mem)

/-- R104: when the whole-array check passes, the checks of every invocation pass. -/
def Obligations.ArrayCheckCoversChunks : Prop :=
  ∀ W ∈ [4, 8, 16], ∀ (p : Platform) (d pa pb : Nat), pointerFault p (4 * W) 64 d pa pb = none →
    ∀ k, k < 16 / W →
      pointerFault p (4 * W) (4 * W) (d + 4 * (W * k)) (pa + 4 * (W * k)) (pb + 4 * (W * k)) = none

/-- R107: on arrays that meet the wide mode's contract, the three modes leave the same memory, with element i
of the result fadd32(A[i], B[i]), and their reports differ only in KCOUNT. -/
def Obligations.CrossModeConsistency : Prop :=
  ∀ s : State, s.contract 64 64 →
    ∃ t4 t8 t16, exec (.dispatch .narrow) s = .next t4 ∧ exec (.dispatch .medium) s = .next t8 ∧
      exec (.dispatch .wide) s = .next t16 ∧ holdsSums s t16 16 ∧ t4.mem = t16.mem ∧ t8.mem = t16.mem ∧
      { t4.block with kcount := 0 } = { t16.block with kcount := 0 } ∧
      { t8.block with kcount := 0 } = { t16.block with kcount := 0 } ∧
      t4.block.kcount = 4 ∧ t8.block.kcount = 2 ∧ t16.block.kcount = 1

/-- R108, first part, in its strongest form: in every state `dispatch wide` and `vadd16` have the same outcome, faults
included. -/
def Obligations.DispatchWideEqualsVadd16 : Prop :=
  ∀ s : State, exec (.dispatch .wide) s = exec .vadd16 s

/-- R108, second and third part: with the pointers meeting the DISPATCH's contract, `dispatch medium` leaves the memory that
`vadd8` at element offsets 0 and 8 leaves, and `dispatch narrow` the memory that `vadd4` at offsets 0, 4, 8 and 12 leaves. The
host moves the three pointers between the commands. The premise on the platform is part of the machine's invariant: with
ADDR_W at most 64 the moved pointers fit their registers. -/
def Obligations.DispatchEqualsVaddSequence : Prop :=
  (∀ s : State, s.contract 32 64 → Platform.legal s.platform →
    ∃ t t0 t1, exec (.dispatch .medium) s = .next t ∧ exec .vadd8 (s.movePointers 0 s) = .next t0 ∧
      exec .vadd8 (s.movePointers 32 t0) = .next t1 ∧ t.mem = t1.mem) ∧
  (∀ s : State, s.contract 16 64 → Platform.legal s.platform →
    ∃ t t0 t1 t2 t3, exec (.dispatch .narrow) s = .next t ∧ exec .vadd4 (s.movePointers 0 s) = .next t0 ∧
      exec .vadd4 (s.movePointers 16 t0) = .next t1 ∧ exec .vadd4 (s.movePointers 32 t1) = .next t2 ∧
      exec .vadd4 (s.movePointers 48 t2) = .next t3 ∧ t.mem = t3.mem)

/-! ### Model faults of the commands -/

/-- A command that uses the pointers faults F_UNWRITTEN_PTR when any of the three registers is unwritten, whatever else is
wrong (R33, R103, R129). -/
def Obligations.UnwrittenPointerFaults : Prop :=
  ∀ i ∈ [Instr.vadd4, .vadd8, .vadd16, .dispatch .narrow, .dispatch .medium, .dispatch .wide], ∀ s : State,
    ¬ s.block.pointersWritten → exec i s = .fault .unwrittenPtr

/-- With the pointers written, one that is no multiple of 4*W faults F_MISALIGNED, whatever its range (R51, R53, R129). -/
def Obligations.MisalignedPointerFaults : Prop :=
  ∀ p ∈ [(Instr.vadd4, 16), (.vadd8, 32), (.vadd16, 64), (.dispatch .narrow, 16), (.dispatch .medium, 32),
      (.dispatch .wide, 64)], ∀ s : State,
    s.block.pointersWritten → ¬ s.pointersAligned p.2 → exec p.1 s = .fault .misaligned

/-- With the pointers written and aligned, a range that passes 2^ADDR_W or is not admitted faults F_OOB; a VADD checks its
4*W bytes, a DISPATCH the 64 bytes of each array, before any chunk (R52, R104, R129). -/
def Obligations.OutOfBoundsFaults : Prop :=
  ∀ p ∈ [(Instr.vadd4, 16, 16), (.vadd8, 32, 32), (.vadd16, 64, 64), (.dispatch .narrow, 16, 64),
      (.dispatch .medium, 32, 64), (.dispatch .wide, 64, 64)], ∀ s : State,
    s.block.pointersWritten → s.pointersAligned p.2.1 → ¬ s.pointersAdmitted p.2.2 → exec p.1 s = .fault .oob

/-- With the pointers written, aligned and admitted, a result array that partly overlaps an operand array makes
`dispatch narrow` and `dispatch medium` fault F_OVERLAP (R54, R104). -/
def Obligations.DispatchPartialOverlapFaults : Prop :=
  ∀ p ∈ [(Mode.narrow, 16), (.medium, 32)], ∀ s : State,
    s.block.pointersWritten → s.pointersAligned p.2 → s.pointersAdmitted 64 → ¬ s.noPartialOverlap 64 →
      exec (.dispatch p.1) s = .fault .overlap

/-- The commands whose alignment is their whole range, the three VADDs and `dispatch wide`, never fault F_OVERLAP
(95_test_vectors.md section 3.1). -/
def Obligations.FullyAlignedCommandsNeverOverlap : Prop :=
  ∀ i ∈ [Instr.vadd4, .vadd8, .vadd16, .dispatch .wide], ∀ s : State, exec i s ≠ .fault .overlap

/-- A command ends in a next state or in one of the four command faults of R127, and is never refused. -/
def Obligations.CommandOutcomesAreListed : Prop :=
  ∀ (i : Instr) (s : State),
    (∃ t, exec i s = .next t) ∨ exec i s = .fault .unwrittenPtr ∨ exec i s = .fault .misaligned ∨
      exec i s = .fault .oob ∨ exec i s = .fault .overlap

/-! ### Host register access -/

/-- R117: a 32-bit read at 0x04 returns DONE at bit 0, ERR_MODE at bit 1, ERR_CMD at bit 2 and zeros above, and changes
nothing but the host's replies. -/
def Obligations.StatusReadReturnsBits : Prop :=
  ∀ (s : State) (rest : List HostOp), s.pending = .regRead 0x04 32 :: rest →
    ∃ v : Bits64, step s = .next { s with pending := rest, replies := s.replies ++ [.reg 0x04 32 v] } ∧
      v.getLsbD 0 = s.block.done ∧ v.getLsbD 1 = s.block.errMode ∧ v.getLsbD 2 = s.block.errCmd ∧
      ∀ k, 3 ≤ k → v.getLsbD k = false

/-- R116 and R119: a 32-bit read at 0x00 returns CMD and one at 0x08 returns KCOUNT; neither changes anything but the host's
replies. -/
def Obligations.CmdAndKcountReadBack : Prop :=
  ∀ (s : State) (rest : List HostOp),
    (s.pending = .regRead 0x00 32 :: rest →
      step s = .next { s with pending := rest, replies := s.replies ++ [.reg 0x00 32 (s.block.cmd.setWidth 64)] }) ∧
    (s.pending = .regRead 0x08 32 :: rest →
      step s = .next { s with pending := rest, replies := s.replies ++ [.reg 0x08 32 (s.block.kcount.setWidth 64)] })

/-- R121: a 64-bit write at 0x10, 0x18 or 0x20 stores every value as written in DST_PTR, A_PTR or B_PTR and sets its written
flag, with no check, and changes nothing else. -/
def Obligations.PointerWriteStoresEveryValue : Prop :=
  ∀ (s : State) (v : Bits64) (rest : List HostOp),
    (s.pending = .regWrite 0x10 64 v :: rest →
      step s = .next { s with pending := rest, block := { s.block with dstPtr := ⟨v, true⟩ } }) ∧
    (s.pending = .regWrite 0x18 64 v :: rest →
      step s = .next { s with pending := rest, block := { s.block with aPtr := ⟨v, true⟩ } }) ∧
    (s.pending = .regWrite 0x20 64 v :: rest →
      step s = .next { s with pending := rest, block := { s.block with bPtr := ⟨v, true⟩ } })

/-- R122: a 64-bit read at 0x10, 0x18 or 0x20 returns the pointer register's value, and faults F_UNWRITTEN_PTR when the
register's written flag is false. -/
def Obligations.PointerReadReturnsValueOrFaults : Prop :=
  ∀ (s : State) (rest : List HostOp),
    ∀ p ∈ [(0x10, s.block.dstPtr), (0x18, s.block.aPtr), (0x20, s.block.bPtr)],
      s.pending = .regRead p.1 64 :: rest →
        (p.2.written = true →
          step s = .next { s with pending := rest, replies := s.replies ++ [.reg p.1 64 p.2.value] }) ∧
        (p.2.written = false → step s = .fault .unwrittenPtr)

/-- R118 and R120: a 32-bit write to STATUS or KCOUNT changes no state for any value. -/
def Obligations.ReadOnlyWritesIgnored : Prop :=
  ∀ (s : State) (v : Bits64) (rest : List HostOp),
    s.pending = .regWrite 0x04 32 v :: rest ∨ s.pending = .regWrite 0x08 32 v :: rest →
      step s = .next { s with pending := rest }

/-- R112 and R113: an access faults F_REG_ACCESS exactly when its (offset, width) is not one of the six legal pairs. -/
def Obligations.IllegalAccessFaultsExactly : Prop :=
  ∀ (s : State) (offset width : Nat) (v : Bits64) (rest : List HostOp),
    (s.pending = .regRead offset width :: rest →
      (step s = .fault .regAccess ↔
        (offset, width) ∉ [(0x00, 32), (0x04, 32), (0x08, 32), (0x10, 64), (0x18, 64), (0x20, 64)])) ∧
    (s.pending = .regWrite offset width v :: rest →
      (step s = .fault .regAccess ↔
        (offset, width) ∉ [(0x00, 32), (0x04, 32), (0x08, 32), (0x10, 64), (0x18, 64), (0x20, 64)]))

/-- R114: a register read that returns changes no register and no byte of memory, and repeating it at once returns the same
value. -/
def Obligations.RegisterReadIsRepeatable : Prop :=
  ∀ (s t : State) (offset width : Nat) (rest : List HostOp),
    s.pending = .regRead offset width :: .regRead offset width :: rest → step s = .next t →
      t.block = s.block ∧ t.mem = s.mem ∧ t.platform = s.platform ∧
      ∃ v u, t.replies = s.replies ++ [.reg offset width v] ∧ step t = .next u ∧
        u = { s with pending := rest, replies := s.replies ++ [.reg offset width v, .reg offset width v] }

/-- R47: a step that is no direct host memory write and issues none of VADD4, VADD8, VADD16 and DISPATCH in a supported mode
leaves memory unchanged: register accesses, reset, and commands that raise ERR_CMD or ERR_MODE. -/
def Obligations.OnlyKernelCommandsWriteMemory : Prop :=
  ∀ s t : State, step s = .next t →
    (∀ a bytes rest, s.pending ≠ .memWrite a bytes :: rest) →
    (∀ v rest, s.pending = .regWrite 0x00 32 v :: rest →
      decode (v.setWidth 32) = .ok (.dispatch .unsupported) ∨ ∃ r, decode (v.setWidth 32) = .error r) →
      t.mem = s.mem

/-- R110, R126 and R133: what CMD, STATUS and KCOUNT held before plays no part in a command: two machines that differ only
there answer a CMD write alike. -/
def Obligations.CommandIgnoresEarlierReport : Prop :=
  ∀ (s : State) (v : Bits64) (rest : List HostOp) (cmd kcount : Bits32) (done errMode errCmd : Bool),
    s.pending = .regWrite 0x00 32 v :: rest →
      step { s with block := { s.block with cmd := cmd, done := done, errMode := errMode, errCmd := errCmd,
                                            kcount := kcount } } = step s

/-! ### Memory -/

/-- R49 and R50: four bytes the host writes are the element there, little-endian, when the command reads it; every other byte
is unchanged. -/
def Obligations.HostBytesAssembleLittleEndian : Prop :=
  ∀ (s : State) (a : Nat) (b0 b1 b2 b3 : Byte) (rest : List HostOp),
    s.pending = .memWrite a [b0, b1, b2, b3] :: rest → a + 4 ≤ 2 ^ s.platform.addrW →
    (a + 4 ≤ s.platform.blockBase.toNat ∨ s.platform.blockBase.toNat + 0x40 ≤ a) →
      ∃ t, step s = .next t ∧ t.mem.readElem a = b3 ++ b2 ++ b1 ++ b0 ∧ keepsOutside s.mem t.mem a 4 ∧
        t.block = s.block ∧ t.platform = s.platform ∧ t.pending = rest ∧ t.replies = s.replies

/-- R111: a direct read of memory by the host returns the bytes in address order and changes nothing but the host's
replies. -/
def Obligations.HostMemoryReadReturnsBytes : Prop :=
  ∀ (s : State) (a n : Nat) (rest : List HostOp), s.pending = .memRead a n :: rest → a + n ≤ 2 ^ s.platform.addrW →
    (a + n ≤ s.platform.blockBase.toNat ∨ s.platform.blockBase.toNat + 0x40 ≤ a) →
      ∃ bytes, step s = .next { s with pending := rest, replies := s.replies ++ [.mem a bytes] } ∧
        bytes.length = n ∧ ∀ k (h : k < bytes.length), bytes[k] = s.mem.readByte (a + k)

/-- R46: no command changes a byte at an address of the register window. -/
def Obligations.CommandsNeverReachWindow : Prop :=
  ∀ (i : Instr) (s t : State), exec i s = .next t →
    ∀ x, s.platform.blockBase.toNat ≤ x → x < s.platform.blockBase.toNat + 0x40 →
      t.mem.readByte x = s.mem.readByte x

/-- R52: every part of an admitted range is admitted. -/
def Obligations.AdmissionIsByteWise : Prop :=
  ∀ (p : Platform) (a n b k : Nat), a ≤ b → b + k ≤ a + n →
    (admitR p a n = true → admitR p b k = true) ∧ (admitW p a n = true → admitW p b k = true)

/-! ### Reset, STATUS and the invariant -/

/-- The values R43 states for reset: CMD, STATUS and KCOUNT are 0 and the three pointer registers unwritten, in State.reset
and after the reset input. The values the unwritten registers hold, the platform and the empty memory are the model's choice
and not part of this statement. -/
def Obligations.ResetValues : Prop :=
  (State.reset.block.cmd = 0 ∧ State.reset.block.statusWord = 0 ∧ State.reset.block.kcount = 0 ∧
    State.reset.block.dstPtr.written = false ∧ State.reset.block.aPtr.written = false ∧
    State.reset.block.bPtr.written = false) ∧
  (∀ (s : State) (rest : List HostOp), s.pending = .reset :: rest →
    ∃ t, step s = .next t ∧ t.block.cmd = 0 ∧ t.block.statusWord = 0 ∧ t.block.kcount = 0 ∧
      t.block.dstPtr.written = false ∧ t.block.aPtr.written = false ∧ t.block.bPtr.written = false)

/-- The reset input leaves memory as it is (R144). That the host's remaining operations and its replies survive it is the
model's own choice, log entry 14 (DEDUCED), and that the platform does is log entry 3 (DESIGN CHOICE): R144 says neither. -/
def Obligations.ResetKeepsMemory : Prop :=
  ∀ (s : State) (rest : List HostOp), s.pending = .reset :: rest →
    ∃ t, step s = .next t ∧ t.mem = s.mem ∧ t.platform = s.platform ∧ t.pending = rest ∧ t.replies = s.replies

/-- The invariant holds right after reset. That the platform there is legal rests on the model's choice of log entry 4. -/
def Obligations.InvHoldsAtReset : Prop := State.reset.Inv

/-- Every step keeps the invariant: memory in canonical form and inside the address space, CMD, STATUS and KCOUNT in agreement
(R25, R26, R27, R29, R123, R134), the platform legal. -/
def Obligations.StepKeepsInv : Prop := ∀ s t : State, s.Inv → step s = .next t → t.Inv

/-- R117 and R134: in a state that meets the invariant STATUS is 0 before the first command and 1, 3 or 5 after it, so the
two error bits are never set together. -/
def Obligations.StatusValuesUnderInv : Prop :=
  ∀ s : State, s.Inv →
    (s.block.done = false → s.block.statusWord = 0x00000000#32) ∧
    (s.block.done = true → s.block.statusWord = 0x00000001#32 ∨ s.block.statusWord = 0x00000003#32 ∨
      s.block.statusWord = 0x00000005#32) ∧
    ¬ (s.block.errMode = true ∧ s.block.errCmd = true)

/-- R25: DONE is 0 after reset and stays 0 until a CMD write completes; every CMD write that returns leaves it 1; and it stays
1 through every operation but reset. -/
def Obligations.DoneFromFirstCommandUntilReset : Prop :=
  ∀ s t : State, step s = .next t →
    (∀ rest, s.pending = .reset :: rest → t.block.done = false) ∧
    (∀ v rest, s.pending = .regWrite 0x00 32 v :: rest → t.block.done = true) ∧
    ((∀ rest, s.pending ≠ .reset :: rest) → (∀ v rest, s.pending ≠ .regWrite 0x00 32 v :: rest) →
      t.block.done = s.block.done)

/-- No step changes the platform's parameters (R9). -/
def Obligations.StepKeepsPlatform : Prop := ∀ s t : State, step s = .next t → t.platform = s.platform

/-! ### Binary32 addition -/

/-- R86 L1 and R84: with a NaN operand, or infinities of opposite sign, the sum is a quiet NaN, whatever the open bits of
NAN_PROP are; and in no other case is it a NaN. -/
def Obligations.FaddIsNanExactly : Prop :=
  ∀ a b : Bits32,
    (isNaN a = true ∨ isNaN b = true ∨ (isInf a = true ∧ isInf b = true ∧ f32Sign a ≠ f32Sign b) →
      isQNaN (fadd32 a b) = true) ∧
    (isNaN a = false → isNaN b = false → ¬ (isInf a = true ∧ isInf b = true ∧ f32Sign a ≠ f32Sign b) →
      isNaN (fadd32 a b) = false)

/-- R84: an infinity added to a finite datum, or to an infinity of the same sign, gives that infinity, on either side. -/
def Obligations.FaddPropagatesInfinity : Prop :=
  ∀ a b : Bits32, isInf a = true → (isFinite b = true ∨ b = a) → fadd32 a b = a ∧ fadd32 b a = a

/-- R90: with no NaN operand and no infinities of opposite sign, addition commutes bit for bit; otherwise both orders give a
quiet NaN. -/
def Obligations.FaddCommutes : Prop :=
  ∀ a b : Bits32,
    (isNaN a = false → isNaN b = false → ¬ (isInf a = true ∧ isInf b = true ∧ f32Sign a ≠ f32Sign b) →
      fadd32 a b = fadd32 b a) ∧
    (isNaN a = true ∨ isNaN b = true ∨ (isInf a = true ∧ isInf b = true ∧ f32Sign a ≠ f32Sign b) →
      isQNaN (fadd32 a b) = true ∧ isQNaN (fadd32 b a) = true)

/-- R88: x + (-x) = +0 for every finite x, where -x is x with its sign bit turned; and the sums of signed zeros. -/
def Obligations.FaddZeroSums : Prop :=
  (∀ x : Bits32, isFinite x = true → fadd32 x (x ^^^ 0x80000000#32) = 0x00000000#32) ∧
  fadd32 0x00000000#32 0x00000000#32 = 0x00000000#32 ∧ fadd32 0x00000000#32 0x80000000#32 = 0x00000000#32 ∧
  fadd32 0x80000000#32 0x00000000#32 = 0x00000000#32 ∧ fadd32 0x80000000#32 0x80000000#32 = 0x80000000#32

/-- R84 and R85: where the exact sum of two finite data is nonzero and is itself the value of a finite datum y, the result is
y, bit for bit. Values are in units of 2^-149. -/
def Obligations.FaddExactWhenRepresentable : Prop :=
  ∀ a b y : Bits32, isFinite a = true → isFinite b = true → isFinite y = true →
    f32Units a + f32Units b ≠ 0 → f32Units y = f32Units a + f32Units b → fadd32 a b = y

/-- R88: a finite sum below 2^-125 in magnitude (2^24 units of 2^-149), every subnormal one among them, is exact, and so never
rounds to zero. -/
def Obligations.FaddSmallSumsExact : Prop :=
  ∀ a b : Bits32, isFinite a = true → isFinite b = true → (f32Units a + f32Units b).natAbs < 2 ^ 24 →
    isFinite (fadd32 a b) = true ∧ f32Units (fadd32 a b) = f32Units a + f32Units b

/-- R88: a sum of two finite data is an infinity, of the sum's sign, exactly when its magnitude is at least
2^128 - 2^103, where rounding reaches 2^128; in units of 2^-149 that is 2^277 - 2^252, or (2^25 - 1) * 2^252. -/
def Obligations.FaddOverflowsExactly : Prop :=
  ∀ a b : Bits32, isFinite a = true → isFinite b = true →
    (isInf (fadd32 a b) = true ↔ (2 ^ 25 - 1) * 2 ^ 252 ≤ (f32Units a + f32Units b).natAbs) ∧
    (isInf (fadd32 a b) = true →
      fadd32 a b = if f32Units a + f32Units b < 0 then 0xFF800000#32 else 0x7F800000#32)

/-- R85: the sum of two finite data, where it does not overflow, is nearest to the exact sum: no finite datum is nearer; and
where another value is as near, the result has an even significand (roundTiesToEven). -/
def Obligations.FaddRoundsToNearestEven : Prop :=
  ∀ a b : Bits32, isFinite a = true → isFinite b = true → isFinite (fadd32 a b) = true →
    ∀ y : Bits32, isFinite y = true →
      (f32Units (fadd32 a b) - (f32Units a + f32Units b)).natAbs ≤ (f32Units y - (f32Units a + f32Units b)).natAbs ∧
      ((f32Units y - (f32Units a + f32Units b)).natAbs =
          (f32Units (fadd32 a b) - (f32Units a + f32Units b)).natAbs →
        f32Units y ≠ f32Units (fadd32 a b) → (fadd32 a b).getLsbD 0 = false)

/-- R84 and R85: the sign of a nonzero sum of finite data is the sign of the exact sum. -/
def Obligations.FaddKeepsSignOfSum : Prop :=
  ∀ a b : Bits32, isFinite a = true → isFinite b = true → f32Units a + f32Units b ≠ 0 →
    f32Sign (fadd32 a b) = decide (f32Units a + f32Units b < 0)
end

