-- ==== Sys2Proof/Laws/Memory.lean ====
section
/-!
SUPPORT. The laws of memory: what a read gives after a write, at the written place and elsewhere, and that every operation
keeps the canonical form and the bound of the address space.
-/

namespace Sys2Proof.Machine

open Memory

/-! ### Reads after writes -/

theorem readByte_eraseAt_self (m : Memory) (a : Nat) : (eraseAt m a).readByte a = Config.unlistedByte := by
  induction m with
  | nil => rfl
  | cons c m ih =>
    obtain ⟨b, w⟩ := c
    by_cases h : b = a
    · simpa [eraseAt, h] using ih
    · simp only [eraseAt, ne_eq, h, not_false_eq_true, decide_true, List.filter_cons_of_pos, readByte]
      rw [if_neg fun e => h e.symm]
      exact ih

theorem readByte_eraseAt_of_ne (m : Memory) {a x : Nat} (hx : x ≠ a) : (eraseAt m a).readByte x = m.readByte x := by
  induction m with
  | nil => rfl
  | cons c m ih =>
    obtain ⟨b, w⟩ := c
    by_cases h : b = a
    · have hxb : x ≠ b := by omega
      simpa [eraseAt, readByte, h, hxb, hx] using ih
    · simp only [eraseAt, ne_eq, h, not_false_eq_true, decide_true, List.filter_cons_of_pos, readByte]
      split
      · rfl
      · exact ih

theorem readByte_insertAt_self (m : Memory) (a : Nat) (v : Byte) (h : ∀ c ∈ m, c.1 ≠ a) :
    (insertAt a v m).readByte a = v := by
  induction m with
  | nil => simp [insertAt, readByte]
  | cons c m ih =>
    obtain ⟨b, w⟩ := c
    have hb : a ≠ b := fun e => h (b, w) (by simp) e.symm
    simp only [insertAt]
    split
    · simp [readByte]
    · rw [readByte, if_neg hb]
      exact ih fun c hc => h c (by simp [hc])

theorem readByte_insertAt_of_ne (m : Memory) (v : Byte) {a x : Nat} (hx : x ≠ a) :
    (insertAt a v m).readByte x = m.readByte x := by
  induction m with
  | nil => simp [insertAt, readByte, hx]
  | cons c m ih =>
    obtain ⟨b, w⟩ := c
    simp only [insertAt]
    split
    · simp [readByte, hx]
    · simp only [readByte, ih]

theorem forall_mem_eraseAt_ne (m : Memory) (a : Nat) : ∀ c ∈ eraseAt m a, c.1 ≠ a := by
  intro c hc
  simpa using (List.mem_filter.1 hc).2

/-- A read after a write to the same place gives the byte written. -/
@[simp] theorem readByte_writeByte_self (m : Memory) (a : Nat) (v : Byte) : (m.writeByte a v).readByte a = v := by
  unfold writeByte
  split
  · next h => rw [readByte_eraseAt_self, h]
  · exact readByte_insertAt_self _ _ _ (forall_mem_eraseAt_ne m a)

/-- A write leaves every other place alone. -/
theorem readByte_writeByte_of_ne (m : Memory) (v : Byte) {a x : Nat} (hx : x ≠ a) :
    (m.writeByte a v).readByte x = m.readByte x := by
  unfold writeByte
  split
  · exact readByte_eraseAt_of_ne m hx
  · rw [readByte_insertAt_of_ne _ _ hx, readByte_eraseAt_of_ne m hx]

/-- A byte outside the stored bytes reads as before. -/
theorem readByte_writeBytes_of_outside (bs : List Byte) (m : Memory) (a x : Nat) (hx : x < a ∨ a + bs.length ≤ x) :
    (m.writeBytes a bs).readByte x = m.readByte x := by
  induction bs generalizing m a with
  | nil => rfl
  | cons v bs ih =>
    simp only [List.length_cons] at hx
    rw [writeBytes, ih _ _ (by omega), readByte_writeByte_of_ne _ _ (by omega)]

/-- A byte among the stored bytes reads as the byte stored there. -/
theorem readByte_writeBytes_inside (bs : List Byte) (m : Memory) (a i : Nat) (hi : i < bs.length) :
    (m.writeBytes a bs).readByte (a + i) = bs[i] := by
  induction bs generalizing m a i with
  | nil => simp at hi
  | cons v bs ih =>
    rw [writeBytes]
    cases i with
    | zero => rw [readByte_writeBytes_of_outside _ _ _ _ (by omega)]; simp
    | succ i =>
      simp only [List.length_cons, Nat.add_lt_add_iff_right] at hi
      rw [show a + (i + 1) = a + 1 + i by omega, ih _ _ _ hi]
      simp

/-- Storing two runs of bytes one after the other is storing them as one run. -/
theorem writeBytes_append (bs cs : List Byte) (m : Memory) (a : Nat) :
    m.writeBytes a (bs ++ cs) = (m.writeBytes a bs).writeBytes (a + bs.length) cs := by
  induction bs generalizing m a with
  | nil => rfl
  | cons v bs ih =>
    simp only [List.cons_append, writeBytes, List.length_cons]
    rw [ih, show a + 1 + bs.length = a + (bs.length + 1) by omega]

@[simp] theorem length_elemBytes (v : Bits32) : (elemBytes v).length = 4 := rfl

@[simp] theorem readElem_writeElem_self (m : Memory) (p : Nat) (v : Bits32) : (m.writeElem p v).readElem p = v := by
  have h := readByte_writeBytes_inside (elemBytes v) m p
  have h0 := h 0 (by simp)
  have h1 := h 1 (by simp)
  have h2 := h 2 (by simp)
  have h3 := h 3 (by simp)
  simp only [elemBytes, List.getElem_cons_zero, List.getElem_cons_succ, Nat.add_zero] at h0 h1 h2 h3
  simp only [readElem, writeElem, elemBytes, h0, h1, h2, h3]
  ext i hi
  simp only [BitVec.getElem_append, BitVec.getElem_extractLsb']
  split
  · simp [hi]
  · split
    · rw [← BitVec.getLsbD_eq_getElem]; congr 1; omega
    · split
      · rw [← BitVec.getLsbD_eq_getElem]; congr 1; omega
      · rw [← BitVec.getLsbD_eq_getElem]; congr 1; omega

theorem readByte_writeElem_of_outside (m : Memory) (p x : Nat) (v : Bits32) (hx : x < p ∨ p + 4 ≤ x) :
    (m.writeElem p v).readByte x = m.readByte x :=
  readByte_writeBytes_of_outside _ _ _ _ (by simpa using hx)

/-- An element disjoint from the stored one reads as before. -/
theorem readElem_writeElem_of_disjoint (m : Memory) (p q : Nat) (v : Bits32) (h : q + 4 ≤ p ∨ p + 4 ≤ q) :
    (m.writeElem p v).readElem q = m.readElem q := by
  simp only [readElem]
  rw [readByte_writeElem_of_outside _ _ _ _ (by omega), readByte_writeElem_of_outside _ _ _ _ (by omega),
    readByte_writeElem_of_outside _ _ _ _ (by omega), readByte_writeElem_of_outside _ _ _ _ (by omega)]

theorem readByte_writeElems_of_outside (vs : List Bits32) (m : Memory) (p x : Nat)
    (hx : x < p ∨ p + 4 * vs.length ≤ x) : (m.writeElems p vs).readByte x = m.readByte x := by
  induction vs generalizing m p with
  | nil => rfl
  | cons v vs ih =>
    simp only [List.length_cons] at hx
    rw [writeElems, ih _ _ (by omega), readByte_writeElem_of_outside _ _ _ _ (by omega)]

theorem readElem_writeElems_of_outside (vs : List Bits32) (m : Memory) (p q : Nat)
    (hq : q + 4 ≤ p ∨ p + 4 * vs.length ≤ q) : (m.writeElems p vs).readElem q = m.readElem q := by
  simp only [readElem]
  rw [readByte_writeElems_of_outside _ _ _ _ (by omega), readByte_writeElems_of_outside _ _ _ _ (by omega),
    readByte_writeElems_of_outside _ _ _ _ (by omega), readByte_writeElems_of_outside _ _ _ _ (by omega)]

/-- Element i of a stored vector reads as the i-th value. -/
theorem readElem_writeElems_inside (vs : List Bits32) (m : Memory) (p i : Nat) (hi : i < vs.length) :
    (m.writeElems p vs).readElem (p + 4 * i) = vs[i] := by
  induction vs generalizing m p i with
  | nil => simp at hi
  | cons v vs ih =>
    rw [writeElems]
    cases i with
    | zero => rw [Nat.mul_zero, Nat.add_zero, readElem_writeElems_of_outside _ _ _ _ (by omega)]; simp
    | succ i =>
      simp only [List.length_cons, Nat.add_lt_add_iff_right] at hi
      rw [show p + 4 * (i + 1) = p + 4 + 4 * i by omega, ih _ _ _ hi]
      simp

theorem writeElems_append (us vs : List Bits32) (m : Memory) (p : Nat) :
    m.writeElems p (us ++ vs) = (m.writeElems p us).writeElems (p + 4 * us.length) vs := by
  induction us generalizing m p with
  | nil => rfl
  | cons u us ih =>
    simp only [List.cons_append, writeElems, List.length_cons]
    rw [ih, show p + 4 + 4 * us.length = p + 4 * (us.length + 1) by omega]

@[simp] theorem length_readElems (m : Memory) (p n : Nat) : (m.readElems p n).length = n := by
  induction n generalizing p with
  | zero => rfl
  | succ n ih => simp [readElems, ih]

theorem getElem_readElems (m : Memory) (p n i : Nat) (hi : i < (m.readElems p n).length) :
    (m.readElems p n)[i] = m.readElem (p + 4 * i) := by
  induction n generalizing p i with
  | zero => simp [readElems] at hi
  | succ n ih =>
    cases i with
    | zero => simp [readElems]
    | succ i =>
      simp only [readElems, List.getElem_cons_succ]
      rw [ih, show p + 4 + 4 * i = p + 4 * (i + 1) by omega]

/-- Two memories that agree on the bytes of a vector hold the same elements. -/
theorem readElems_congr (m m' : Memory) (p n : Nat) (h : ∀ x, p ≤ x → x < p + 4 * n → m.readByte x = m'.readByte x) :
    m.readElems p n = m'.readElems p n := by
  induction n generalizing p with
  | zero => rfl
  | succ n ih =>
    simp only [readElems, readElem]
    rw [h _ (by omega) (by omega), h _ (by omega) (by omega), h _ (by omega) (by omega), h _ (by omega) (by omega),
      ih _ fun x h1 h2 => h x (by omega) (by omega)]

@[simp] theorem length_readBytes (m : Memory) (a n : Nat) : (m.readBytes a n).length = n := by
  induction n generalizing a with
  | zero => rfl
  | succ n ih => simp [readBytes, ih]

/-! ### The canonical form -/

theorem wf_iff (m : Memory) :
    m.wf = true ↔ (m.map Prod.fst).Pairwise (· < ·) ∧ ∀ c ∈ m, c.2 ≠ Config.unlistedByte := by
  induction m with
  | nil => simp [wf]
  | cons c m ih =>
    obtain ⟨a, v⟩ := c
    cases m with
    | nil => simp [wf]
    | cons d m =>
      obtain ⟨b, w⟩ := d
      simp only [wf, Bool.and_eq_true, decide_eq_true_eq, bne_iff_ne, ih]
      constructor
      · rintro ⟨⟨hab, hv⟩, hp, hn⟩
        refine ⟨?_, ?_⟩
        · rw [List.map_cons, List.pairwise_cons]
          refine ⟨fun x hx => ?_, hp⟩
          rw [List.map_cons] at hx hp
          rcases List.mem_cons.1 hx with rfl | hx
          · exact hab
          · exact hab.trans ((List.pairwise_cons.1 hp).1 x hx)
        · intro c hc
          rcases List.mem_cons.1 hc with rfl | hc
          · exact hv
          · exact hn c hc
      · rintro ⟨hp, hn⟩
        rw [List.map_cons, List.pairwise_cons] at hp
        exact ⟨⟨hp.1 b (by simp), hn (a, v) (by simp)⟩, hp.2, fun c hc => hn c (by simp [hc])⟩

theorem mem_insertAt {a : Nat} {v : Byte} {m : Memory} {c : Host.Cell} :
    c ∈ insertAt a v m ↔ c = (a, v) ∨ c ∈ m := by
  induction m with
  | nil => simp [insertAt]
  | cons d m ih =>
    obtain ⟨b, w⟩ := d
    simp only [insertAt]
    split
    · simp
    · simp only [List.mem_cons, ih]
      tauto

theorem pairwise_insertAt (a : Nat) (v : Byte) (m : Memory) (hne : ∀ c ∈ m, c.1 ≠ a)
    (h : (m.map Prod.fst).Pairwise (· < ·)) : ((insertAt a v m).map Prod.fst).Pairwise (· < ·) := by
  induction m with
  | nil => simp [insertAt]
  | cons d m ih =>
    obtain ⟨b, w⟩ := d
    rw [List.map_cons, List.pairwise_cons] at h
    have hb : b ≠ a := hne (b, w) (by simp)
    simp only [insertAt]
    split
    · next hab =>
      simp only [List.map_cons, List.pairwise_cons, List.mem_cons]
      refine ⟨?_, h⟩
      rintro x (rfl | hx)
      · exact hab
      · exact hab.trans (h.1 x hx)
    · next hab =>
      rw [List.map_cons, List.pairwise_cons]
      refine ⟨fun x hx => ?_, ih (fun c hc => hne c (by simp [hc])) h.2⟩
      obtain ⟨c, hc, rfl⟩ := List.mem_map.1 hx
      rcases mem_insertAt.1 hc with rfl | hc
      · simp only; omega
      · exact h.1 _ (List.mem_map_of_mem hc)

/-- Storing a byte keeps the canonical form. -/
theorem wf_writeByte (m : Memory) (a : Nat) (v : Byte) (h : m.wf = true) : (m.writeByte a v).wf = true := by
  rw [wf_iff] at h ⊢
  have he : (eraseAt m a).Sublist m := List.filter_sublist
  have hp : ((eraseAt m a).map Prod.fst).Pairwise (· < ·) := h.1.sublist (he.map _)
  unfold writeByte
  split
  · exact ⟨hp, fun c hc => h.2 c (he.subset hc)⟩
  · next hv =>
    refine ⟨pairwise_insertAt _ _ _ (forall_mem_eraseAt_ne m a) hp, fun c hc => ?_⟩
    rcases mem_insertAt.1 hc with rfl | hc
    · exact hv
    · exact h.2 c (he.subset hc)

theorem wf_writeBytes (bs : List Byte) (m : Memory) (a : Nat) (h : m.wf = true) : (m.writeBytes a bs).wf = true := by
  induction bs generalizing m a with
  | nil => exact h
  | cons v bs ih => exact ih _ _ (wf_writeByte m a v h)

theorem wf_writeElem (m : Memory) (p : Nat) (v : Bits32) (h : m.wf = true) : (m.writeElem p v).wf = true :=
  wf_writeBytes _ _ _ h

theorem wf_writeElems (vs : List Bits32) (m : Memory) (p : Nat) (h : m.wf = true) : (m.writeElems p vs).wf = true := by
  induction vs generalizing m p with
  | nil => exact h
  | cons v vs ih => exact ih _ _ (wf_writeElem m p v h)

/-! ### The bound of the address space -/

theorem below_iff (m : Memory) (n : Nat) : m.below n = true ↔ ∀ c ∈ m, c.1 < n := by simp [below]

theorem below_writeByte (m : Memory) (a n : Nat) (v : Byte) (ha : a < n) (h : m.below n = true) :
    (m.writeByte a v).below n = true := by
  rw [below_iff] at h ⊢
  have he : (eraseAt m a).Sublist m := List.filter_sublist
  unfold writeByte
  split
  · exact fun c hc => h c (he.subset hc)
  · intro c hc
    rcases mem_insertAt.1 hc with rfl | hc
    · exact ha
    · exact h c (he.subset hc)

theorem below_writeBytes (bs : List Byte) (m : Memory) (a n : Nat) (ha : a + bs.length ≤ n) (h : m.below n = true) :
    (m.writeBytes a bs).below n = true := by
  induction bs generalizing m a with
  | nil => exact h
  | cons v bs ih =>
    simp only [List.length_cons] at ha
    exact ih _ _ (by omega) (below_writeByte m a n v (by omega) h)

theorem below_writeElems (vs : List Bits32) (m : Memory) (p n : Nat) (hp : p + 4 * vs.length ≤ n)
    (h : m.below n = true) : (m.writeElems p vs).below n = true := by
  induction vs generalizing m p with
  | nil => exact h
  | cons v vs ih =>
    simp only [List.length_cons] at hp
    exact ih _ _ (by omega) (below_writeBytes _ _ _ _ (by simp; omega) h)

/-- Two memories in canonical form that read alike are equal. -/
theorem eq_of_wf_of_readByte_eq {m m' : Memory} (h : m.wf = true) (h' : m'.wf = true)
    (hr : ∀ a, m.readByte a = m'.readByte a) : m = m' := by
  have listed : ∀ {m : Memory}, m.wf = true → ∀ c ∈ m, m.readByte c.1 = c.2 := by
    intro m hm
    rw [wf_iff] at hm
    induction m with
    | nil => simp
    | cons d m ih =>
      obtain ⟨hp, hn⟩ := hm
      rw [List.map_cons, List.pairwise_cons] at hp
      intro c hc
      rcases List.mem_cons.1 hc with rfl | hc
      · simp [readByte]
      · have hlt := hp.1 c.1 (List.mem_map_of_mem hc)
        rw [readByte, if_neg (by omega)]
        exact ih ⟨hp.2, fun c hc => hn c (by simp [hc])⟩ c hc
  have unlisted : ∀ (m : Memory) a, (∀ c ∈ m, c.1 ≠ a) → m.readByte a = Config.unlistedByte := by
    intro m a hm
    induction m with
    | nil => rfl
    | cons d m ih =>
      rw [readByte, if_neg fun e => hm d (by simp) e.symm]
      exact ih fun c hc => hm c (by simp [hc])
  have sub : ∀ {m m' : Memory}, m.wf = true → m'.wf = true → (∀ a, m.readByte a = m'.readByte a) →
      ∀ c ∈ m, c ∈ m' := by
    intro m m' h h' hr c hc
    have hv : m'.readByte c.1 = c.2 := by rw [← hr, listed h c hc]
    by_contra hmem
    by_cases hex : ∃ d ∈ m', d.1 = c.1
    · obtain ⟨d, hd, hdc⟩ := hex
      have := listed h' d hd
      rw [hdc, hv] at this
      exact hmem (by rwa [show c = d from Prod.ext hdc.symm this])
    · push Not at hex
      rw [unlisted m' c.1 hex] at hv
      exact ((wf_iff m).1 h).2 c hc hv.symm
  have hs : ∀ {m : Memory}, m.wf = true → m.Pairwise (fun c d => c.1 < d.1) := fun hm =>
    List.pairwise_map.1 ((wf_iff _).1 hm).1
  have nd : ∀ {m : Memory}, m.wf = true → m.Nodup := fun hm =>
    (hs hm).imp fun hlt e => absurd (congrArg Prod.fst e) (Nat.ne_of_lt hlt)
  refine List.Perm.eq_of_pairwise (le := fun c d => c.1 < d.1) ?_ (hs h) (hs h')
    ((List.perm_ext_iff_of_nodup (nd h) (nd h')).2 fun c => ⟨sub h h' hr c, sub h' h (fun a => (hr a).symm) c⟩)
  intro c d _ _ hcd hdc
  omega

end Sys2Proof.Machine
end

