-- ==== Sys2Proof/Laws/State.lean ====
section
/-!
SUPPORT. One lemma per field per update of the state, each true by unfolding, so that no later proof unfolds a record update.
-/

namespace Sys2Proof.Machine

variable (s : State)

/-! ### beginCommand -/
@[simp] theorem beginCommand_cmd : s.beginCommand.block.cmd = s.block.cmd := rfl
@[simp] theorem beginCommand_done : s.beginCommand.block.done = s.block.done := rfl
@[simp] theorem beginCommand_errMode : s.beginCommand.block.errMode = false := rfl
@[simp] theorem beginCommand_errCmd : s.beginCommand.block.errCmd = false := rfl
@[simp] theorem beginCommand_kcount : s.beginCommand.block.kcount = 0 := rfl
@[simp] theorem beginCommand_dstPtr : s.beginCommand.block.dstPtr = s.block.dstPtr := rfl
@[simp] theorem beginCommand_aPtr : s.beginCommand.block.aPtr = s.block.aPtr := rfl
@[simp] theorem beginCommand_bPtr : s.beginCommand.block.bPtr = s.block.bPtr := rfl
@[simp] theorem beginCommand_mem : s.beginCommand.mem = s.mem := rfl
@[simp] theorem beginCommand_platform : s.beginCommand.platform = s.platform := rfl
@[simp] theorem beginCommand_pending : s.beginCommand.pending = s.pending := rfl
@[simp] theorem beginCommand_replies : s.beginCommand.replies = s.replies := rfl

/-! ### acceptCommand -/
@[simp] theorem acceptCommand_cmd (w) : (s.acceptCommand w).block.cmd = w := rfl
@[simp] theorem acceptCommand_done (w) : (s.acceptCommand w).block.done = s.block.done := rfl
@[simp] theorem acceptCommand_errMode (w) : (s.acceptCommand w).block.errMode = false := rfl
@[simp] theorem acceptCommand_errCmd (w) : (s.acceptCommand w).block.errCmd = false := rfl
@[simp] theorem acceptCommand_kcount (w) : (s.acceptCommand w).block.kcount = 0 := rfl
@[simp] theorem acceptCommand_dstPtr (w) : (s.acceptCommand w).block.dstPtr = s.block.dstPtr := rfl
@[simp] theorem acceptCommand_aPtr (w) : (s.acceptCommand w).block.aPtr = s.block.aPtr := rfl
@[simp] theorem acceptCommand_bPtr (w) : (s.acceptCommand w).block.bPtr = s.block.bPtr := rfl
@[simp] theorem acceptCommand_mem (w) : (s.acceptCommand w).mem = s.mem := rfl
@[simp] theorem acceptCommand_platform (w) : (s.acceptCommand w).platform = s.platform := rfl
@[simp] theorem acceptCommand_pending (w) : (s.acceptCommand w).pending = s.pending := rfl
@[simp] theorem acceptCommand_replies (w) : (s.acceptCommand w).replies = s.replies := rfl

/-! ### completeCommand -/
@[simp] theorem completeCommand_cmd : s.completeCommand.block.cmd = s.block.cmd := rfl
@[simp] theorem completeCommand_done : s.completeCommand.block.done = true := rfl
@[simp] theorem completeCommand_errMode : s.completeCommand.block.errMode = s.block.errMode := rfl
@[simp] theorem completeCommand_errCmd : s.completeCommand.block.errCmd = s.block.errCmd := rfl
@[simp] theorem completeCommand_kcount : s.completeCommand.block.kcount = s.block.kcount := rfl
@[simp] theorem completeCommand_dstPtr : s.completeCommand.block.dstPtr = s.block.dstPtr := rfl
@[simp] theorem completeCommand_aPtr : s.completeCommand.block.aPtr = s.block.aPtr := rfl
@[simp] theorem completeCommand_bPtr : s.completeCommand.block.bPtr = s.block.bPtr := rfl
@[simp] theorem completeCommand_mem : s.completeCommand.mem = s.mem := rfl
@[simp] theorem completeCommand_platform : s.completeCommand.platform = s.platform := rfl
@[simp] theorem completeCommand_pending : s.completeCommand.pending = s.pending := rfl
@[simp] theorem completeCommand_replies : s.completeCommand.replies = s.replies := rfl

/-! ### countInvocation -/
@[simp] theorem countInvocation_cmd : s.countInvocation.block.cmd = s.block.cmd := rfl
@[simp] theorem countInvocation_done : s.countInvocation.block.done = s.block.done := rfl
@[simp] theorem countInvocation_errMode : s.countInvocation.block.errMode = s.block.errMode := rfl
@[simp] theorem countInvocation_errCmd : s.countInvocation.block.errCmd = s.block.errCmd := rfl
@[simp] theorem countInvocation_kcount : s.countInvocation.block.kcount = s.block.kcount + 1 := rfl
@[simp] theorem countInvocation_dstPtr : s.countInvocation.block.dstPtr = s.block.dstPtr := rfl
@[simp] theorem countInvocation_aPtr : s.countInvocation.block.aPtr = s.block.aPtr := rfl
@[simp] theorem countInvocation_bPtr : s.countInvocation.block.bPtr = s.block.bPtr := rfl
@[simp] theorem countInvocation_mem : s.countInvocation.mem = s.mem := rfl
@[simp] theorem countInvocation_platform : s.countInvocation.platform = s.platform := rfl
@[simp] theorem countInvocation_pending : s.countInvocation.pending = s.pending := rfl
@[simp] theorem countInvocation_replies : s.countInvocation.replies = s.replies := rfl

/-! ### raiseError -/
@[simp] theorem raiseError_cmd (e) : (s.raiseError e).block.cmd = s.block.cmd := by cases e <;> rfl
@[simp] theorem raiseError_done (e) : (s.raiseError e).block.done = true := by cases e <;> rfl
@[simp] theorem raiseError_errMode (e) :
    (s.raiseError e).block.errMode = (decide (e = .errMode) || s.block.errMode) := by cases e <;> rfl
@[simp] theorem raiseError_errCmd (e) :
    (s.raiseError e).block.errCmd = (decide (e = .errCmd) || s.block.errCmd) := by cases e <;> rfl
@[simp] theorem raiseError_kcount (e) : (s.raiseError e).block.kcount = s.block.kcount := by cases e <;> rfl
@[simp] theorem raiseError_dstPtr (e) : (s.raiseError e).block.dstPtr = s.block.dstPtr := by cases e <;> rfl
@[simp] theorem raiseError_aPtr (e) : (s.raiseError e).block.aPtr = s.block.aPtr := by cases e <;> rfl
@[simp] theorem raiseError_bPtr (e) : (s.raiseError e).block.bPtr = s.block.bPtr := by cases e <;> rfl
@[simp] theorem raiseError_mem (e) : (s.raiseError e).mem = s.mem := by cases e <;> rfl
@[simp] theorem raiseError_platform (e) : (s.raiseError e).platform = s.platform := by cases e <;> rfl
@[simp] theorem raiseError_pending (e) : (s.raiseError e).pending = s.pending := by cases e <;> rfl
@[simp] theorem raiseError_replies (e) : (s.raiseError e).replies = s.replies := by cases e <;> rfl

/-! ### resetBlock -/
@[simp] theorem resetBlock_block : s.resetBlock.block = Block.reset := rfl
@[simp] theorem resetBlock_mem : s.resetBlock.mem = s.mem := rfl
@[simp] theorem resetBlock_platform : s.resetBlock.platform = s.platform := rfl
@[simp] theorem resetBlock_pending : s.resetBlock.pending = s.pending := rfl
@[simp] theorem resetBlock_replies : s.resetBlock.replies = s.replies := rfl

/-! ### reply -/
@[simp] theorem reply_block (r) : (s.reply r).block = s.block := rfl
@[simp] theorem reply_mem (r) : (s.reply r).mem = s.mem := rfl
@[simp] theorem reply_platform (r) : (s.reply r).platform = s.platform := rfl
@[simp] theorem reply_pending (r) : (s.reply r).pending = s.pending := rfl
@[simp] theorem reply_replies (r) : (s.reply r).replies = s.replies ++ [r] := rfl

/-! ### writePtr -/
@[simp] theorem writePtr_cmd (r v) : (s.writePtr r v).block.cmd = s.block.cmd := by cases r <;> rfl
@[simp] theorem writePtr_done (r v) : (s.writePtr r v).block.done = s.block.done := by cases r <;> rfl
@[simp] theorem writePtr_errMode (r v) : (s.writePtr r v).block.errMode = s.block.errMode := by cases r <;> rfl
@[simp] theorem writePtr_errCmd (r v) : (s.writePtr r v).block.errCmd = s.block.errCmd := by cases r <;> rfl
@[simp] theorem writePtr_kcount (r v) : (s.writePtr r v).block.kcount = s.block.kcount := by cases r <;> rfl
@[simp] theorem writePtr_dstPtr (r v) :
    (s.writePtr r v).block.dstPtr = if r = .dst then ⟨v, true⟩ else s.block.dstPtr := by cases r <;> rfl
@[simp] theorem writePtr_aPtr (r v) :
    (s.writePtr r v).block.aPtr = if r = .a then ⟨v, true⟩ else s.block.aPtr := by cases r <;> rfl
@[simp] theorem writePtr_bPtr (r v) :
    (s.writePtr r v).block.bPtr = if r = .b then ⟨v, true⟩ else s.block.bPtr := by cases r <;> rfl
@[simp] theorem writePtr_mem (r v) : (s.writePtr r v).mem = s.mem := by cases r <;> rfl
@[simp] theorem writePtr_platform (r v) : (s.writePtr r v).platform = s.platform := by cases r <;> rfl
@[simp] theorem writePtr_pending (r v) : (s.writePtr r v).pending = s.pending := by cases r <;> rfl
@[simp] theorem writePtr_replies (r v) : (s.writePtr r v).replies = s.replies := by cases r <;> rfl

end Sys2Proof.Machine
end

