-- ==== Sys2Proof/Laws/Commands.lean ====
section
/-!
SUPPORT. One lemma per shared operation of the commands, saying once everything it can answer: the checks, the reading of the
pointers, the kernel, a VADD, the chunk loop, a DISPATCH.
-/

namespace Sys2Proof.Machine

/-! ### Admission and the checks -/

theorem allBytes_iff (test : Nat → Bool) (a n : Nat) :
    allBytes test a n = true ↔ ∀ x, a ≤ x → x < a + n → test x = true := by
  simp only [allBytes, List.all_eq_true, List.mem_range]
  constructor
  · intro h x h1 h2
    simpa [show a + (x - a) = x by omega] using h (x - a) (by omega)
  · intro h k hk
    exact h _ (by omega) (by omega)

theorem inRegion_iff (a : Nat) (r : Region) : inRegion a r = true ↔ r.base ≤ a ∧ a < r.base + r.size := by
  simp [inRegion]

theorem inWindow_iff (p : Platform) (a : Nat) :
    inWindow p a = true ↔ p.blockBase.toNat ≤ a ∧ a < p.blockBase.toNat + 0x40 := by
  rw [inWindow, Bool.and_eq_true, decide_eq_true_eq, decide_eq_true_eq, Config.windowBytes]

theorem readableByte_iff (p : Platform) (a : Nat) :
    readableByte p a = true ↔ (∃ r ∈ p.readable, r.base ≤ a ∧ a < r.base + r.size) ∧
      ¬ (p.blockBase.toNat ≤ a ∧ a < p.blockBase.toNat + 0x40) := by
  rw [← inWindow_iff]
  simp [readableByte, inRegion_iff]

theorem writableByte_iff (p : Platform) (a : Nat) :
    writableByte p a = true ↔ (∃ r ∈ p.writable, r.base ≤ a ∧ a < r.base + r.size) ∧
      ¬ (p.blockBase.toNat ≤ a ∧ a < p.blockBase.toNat + 0x40) := by
  rw [← inWindow_iff]
  simp [writableByte, inRegion_iff]

theorem mayRead_iff (p : Platform) (a n : Nat) :
    Platform.mayRead p a n ↔ (inSpace p a n && admitR p a n) = true := by
  simp only [Platform.mayRead, inSpace, admitR, Bool.and_eq_true, decide_eq_true_eq, allBytes_iff, readableByte_iff]

theorem mayWrite_iff (p : Platform) (a n : Nat) :
    Platform.mayWrite p a n ↔ (inSpace p a n && admitW p a n) = true := by
  simp only [Platform.mayWrite, inSpace, admitW, Bool.and_eq_true, decide_eq_true_eq, allBytes_iff, writableByte_iff]

theorem aligned_iff (align d pa pb : Nat) : aligned align d pa pb = true ↔ align ∣ d ∧ align ∣ pa ∧ align ∣ pb := by
  simp [aligned, Nat.dvd_iff_mod_eq_zero, and_assoc]

theorem inBounds_iff (p : Platform) (size d pa pb : Nat) :
    inBounds p size d pa pb = true ↔
      Platform.mayRead p pa size ∧ Platform.mayRead p pb size ∧ Platform.mayWrite p d size := by
  rw [mayRead_iff, mayRead_iff, mayWrite_iff, inBounds, Bool.and_eq_true, Bool.and_eq_true, and_assoc]

theorem partlyOverlaps_eq_false_iff {size : Nat} (d q : Nat) :
    partlyOverlaps size d q = false ↔ sameOrDisjoint size d q := by
  simp only [partlyOverlaps, sameOrDisjoint, Bool.and_eq_false_iff, decide_eq_false_iff_not]
  omega

/-- What the checks of a command answer, in their order. -/
theorem pointerFault_cases (p : Platform) (align size d pa pb : Nat) :
    (¬ (align ∣ d ∧ align ∣ pa ∧ align ∣ pb) ∧ pointerFault p align size d pa pb = some .misaligned) ∨
    ((align ∣ d ∧ align ∣ pa ∧ align ∣ pb) ∧
      ¬ (Platform.mayRead p pa size ∧ Platform.mayRead p pb size ∧ Platform.mayWrite p d size) ∧
      pointerFault p align size d pa pb = some .oob) ∨
    ((align ∣ d ∧ align ∣ pa ∧ align ∣ pb) ∧
      (Platform.mayRead p pa size ∧ Platform.mayRead p pb size ∧ Platform.mayWrite p d size) ∧
      ¬ (sameOrDisjoint size d pa ∧ sameOrDisjoint size d pb) ∧
      pointerFault p align size d pa pb = some .overlap) ∨
    ((align ∣ d ∧ align ∣ pa ∧ align ∣ pb) ∧
      (Platform.mayRead p pa size ∧ Platform.mayRead p pb size ∧ Platform.mayWrite p d size) ∧
      (sameOrDisjoint size d pa ∧ sameOrDisjoint size d pb) ∧ pointerFault p align size d pa pb = none) := by
  rw [← aligned_iff, ← inBounds_iff, ← partlyOverlaps_eq_false_iff, ← partlyOverlaps_eq_false_iff, pointerFault]
  cases aligned align d pa pb <;> cases inBounds p size d pa pb <;> cases partlyOverlaps size d pa <;>
    cases partlyOverlaps size d pb <;> simp

theorem pointerFault_eq_none_iff (p : Platform) (align size d pa pb : Nat) :
    pointerFault p align size d pa pb = none ↔
      (align ∣ d ∧ align ∣ pa ∧ align ∣ pb) ∧
      (Platform.mayRead p pa size ∧ Platform.mayRead p pb size ∧ Platform.mayWrite p d size) ∧
      (sameOrDisjoint size d pa ∧ sameOrDisjoint size d pb) := by
  rcases pointerFault_cases p align size d pa pb with ⟨h, e⟩ | ⟨h, h2, e⟩ | ⟨h, h2, h3, e⟩ | ⟨h, h2, h3, e⟩ <;>
    simp_all

/-! ### The pointers -/

theorem readPointers_of_written {s : State} (h : s.block.pointersWritten) :
    s.readPointers = .ok ⟨s.dstAddr, s.aAddr, s.bAddr⟩ := by
  obtain ⟨h1, h2, h3⟩ := h
  simp [State.readPointers, PtrReg.read, h1, h2, h3, State.dstAddr, State.aAddr, State.bAddr]

theorem readPointers_of_not_written {s : State} (h : ¬ s.block.pointersWritten) :
    s.readPointers = .error .unwrittenPtr := by
  simp only [Block.pointersWritten] at h
  simp only [State.readPointers, PtrReg.read]
  cases h1 : s.block.dstPtr.written <;> cases h2 : s.block.aPtr.written <;> cases h3 : s.block.bPtr.written <;>
    simp_all

/-! ### The kernel and the VADD commands -/

/-- The state after one invocation of the kernel of width W. -/
def afterKernel (W d pa pb : Nat) (s : State) : State :=
  ({ s with mem := s.mem.writeElems d (laneSums W s.mem pa pb) }).countInvocation

@[simp] theorem afterKernel_mem (W d pa pb : Nat) (s : State) :
    (afterKernel W d pa pb s).mem = s.mem.writeElems d (laneSums W s.mem pa pb) := rfl
@[simp] theorem afterKernel_block (W d pa pb : Nat) (s : State) :
    (afterKernel W d pa pb s).block = { s.block with kcount := s.block.kcount + 1 } := rfl
@[simp] theorem afterKernel_platform (W d pa pb : Nat) (s : State) :
    (afterKernel W d pa pb s).platform = s.platform := rfl
@[simp] theorem afterKernel_pending (W d pa pb : Nat) (s : State) :
    (afterKernel W d pa pb s).pending = s.pending := rfl
@[simp] theorem afterKernel_replies (W d pa pb : Nat) (s : State) :
    (afterKernel W d pa pb s).replies = s.replies := rfl

theorem kernel_eq (W d pa pb : Nat) (s : State) :
    kernel W d pa pb s = match pointerFault s.platform (4 * W) (4 * W) d pa pb with
      | some f => .error f
      | none => .ok (afterKernel W d pa pb s) := rfl

@[simp] theorem length_laneSums (W : Nat) (m : Memory) (pa pb : Nat) : (laneSums W m pa pb).length = W := by
  simp [laneSums]

theorem getElem_laneSums (W : Nat) (m : Memory) (pa pb i : Nat) (hi : i < (laneSums W m pa pb).length) :
    (laneSums W m pa pb)[i] = fadd32 (m.readElem (pa + 4 * i)) (m.readElem (pb + 4 * i)) := by
  simp [laneSums, getElem_readElems]

theorem vadd_of_not_written {W : Nat} {s : State} (h : ¬ s.block.pointersWritten) :
    vadd W s = .error .unwrittenPtr := by
  rw [vadd, readPointers_of_not_written (s := s.beginCommand) h]

/-- A VADD with its pointers written, checks and effect. -/
theorem vadd_of_written {W : Nat} {s : State} (h : s.block.pointersWritten) :
    vadd W s = match pointerFault s.platform (4 * W) (4 * W) s.dstAddr s.aAddr s.bAddr with
      | some f => .error f
      | none => .ok (afterKernel W s.dstAddr s.aAddr s.bAddr s.beginCommand).completeCommand := by
  rw [vadd, readPointers_of_written (s := s.beginCommand) h]
  simp only [kernel_eq, beginCommand_platform]
  simp only [State.dstAddr, State.aAddr, State.bAddr, beginCommand_dstPtr, beginCommand_aPtr, beginCommand_bPtr]
  cases pointerFault s.platform (4 * W) (4 * W) s.block.dstPtr.value.toNat s.block.aPtr.value.toNat
    s.block.bPtr.value.toNat <;> rfl

theorem pointerFault_of_contract {s : State} {align size : Nat} (h : s.contract align size) :
    pointerFault s.platform align size s.dstAddr s.aAddr s.bAddr = none :=
  (pointerFault_eq_none_iff ..).2 h.2

theorem vadd_of_contract {W : Nat} {s : State} (h : s.contract (4 * W) (4 * W)) :
    vadd W s = .ok (afterKernel W s.dstAddr s.aAddr s.bAddr s.beginCommand).completeCommand := by
  rw [vadd_of_written h.1, pointerFault_of_contract h]

/-- Everything a VADD of width W can answer. -/
theorem vadd_cases (W : Nat) (s : State) :
    (s.contract (4 * W) (4 * W) ∧
      vadd W s = .ok (afterKernel W s.dstAddr s.aAddr s.bAddr s.beginCommand).completeCommand) ∨
    (¬ s.contract (4 * W) (4 * W) ∧
      (vadd W s = .error .unwrittenPtr ∨ vadd W s = .error .misaligned ∨ vadd W s = .error .oob ∨
        vadd W s = .error .overlap)) := by
  by_cases hw : s.block.pointersWritten
  · rw [vadd_of_written hw]
    rcases pointerFault_cases s.platform (4 * W) (4 * W) s.dstAddr s.aAddr s.bAddr with
      ⟨h, e⟩ | ⟨h, h2, e⟩ | ⟨h, h2, h3, e⟩ | ⟨h, h2, h3, e⟩ <;> rw [e]
    · exact .inr ⟨fun c => h c.2.1, by simp⟩
    · exact .inr ⟨fun c => h2 c.2.2.1, by simp⟩
    · exact .inr ⟨fun c => h3 c.2.2.2, by simp⟩
    · exact .inl ⟨⟨hw, h, h2, h3⟩, rfl⟩
  · exact .inr ⟨fun c => hw c.1, .inl (vadd_of_not_written hw)⟩

/-! ### The chunk loop and DISPATCH -/

/-- The memory after the invocations at the given offsets. -/
def memAfterChunks (W d pa pb : Nat) : List Nat → Memory → Memory
  | [], m => m
  | offset :: rest, m =>
    memAfterChunks W d pa pb rest
      (m.writeElems (d + 4 * offset) (laneSums W m (pa + 4 * offset) (pb + 4 * offset)))

/-- When every invocation's checks pass, the chunk loop performs them all. -/
theorem runChunks_ok (W d pa pb : Nat) (offsets : List Nat) (s : State)
    (h : ∀ o ∈ offsets,
      pointerFault s.platform (4 * W) (4 * W) (d + 4 * o) (pa + 4 * o) (pb + 4 * o) = none) :
    runChunks W d pa pb offsets s = .ok { s with
      mem := memAfterChunks W d pa pb offsets s.mem
      block := { s.block with kcount := s.block.kcount + BitVec.ofNat 32 offsets.length } } := by
  induction offsets generalizing s with
  | nil => simp [runChunks, memAfterChunks]
  | cons o rest ih =>
    rw [runChunks, kernel_eq, h o (by simp)]
    simp only
    rw [ih (afterKernel W (d + 4 * o) (pa + 4 * o) (pb + 4 * o) s) fun q hq => h q (by simp [hq])]
    have : s.block.kcount + 1#32 + BitVec.ofNat 32 rest.length =
        s.block.kcount + BitVec.ofNat 32 (rest.length + 1) := by
      rw [BitVec.add_assoc]
      congr 1
      apply BitVec.eq_of_toNat_eq
      simp [Nat.add_comm]
    simp [memAfterChunks, this]

theorem sameOrDisjoint_chunk {W d q o : Nat} (h : sameOrDisjoint 64 d q) (ho : o + W ≤ 16) :
    sameOrDisjoint (4 * W) (d + 4 * o) (q + 4 * o) := by
  unfold sameOrDisjoint at *
  omega

theorem mayRead_chunk {p : Platform} {a W o : Nat} (h : Platform.mayRead p a 64) (ho : o + W ≤ 16) :
    Platform.mayRead p (a + 4 * o) (4 * W) :=
  ⟨by have := h.1; omega, fun x h1 h2 => h.2 x (by omega) (by omega)⟩

theorem mayWrite_chunk {p : Platform} {a W o : Nat} (h : Platform.mayWrite p a 64) (ho : o + W ≤ 16) :
    Platform.mayWrite p (a + 4 * o) (4 * W) :=
  ⟨by have := h.1; omega, fun x h1 h2 => h.2 x (by omega) (by omega)⟩

/-- Two runs of sums, side by side. -/
theorem laneSums_add (U V : Nat) (m : Memory) (pa pb : Nat) :
    laneSums (U + V) m pa pb = laneSums U m pa pb ++ laneSums V m (pa + 4 * U) (pb + 4 * U) := by
  apply List.ext_getElem
  · simp
  · intro i h1 h2
    rw [getElem_laneSums, List.getElem_append]
    split
    · rw [getElem_laneSums]
    · next hlt =>
      rw [getElem_laneSums]
      simp only [length_laneSums] at hlt ⊢
      congr 2 <;> omega

/-- The sums of a later chunk do not see the earlier chunks' results, when the destination is identical to or disjoint from
each operand (R54, R105). -/
theorem laneSums_after_writeElems {U V d pa pb : Nat} (m : Memory) (vs : List Bits32) (hvs : vs.length = U)
    (hUV : U + V ≤ 16) (ha : sameOrDisjoint 64 d pa) (hb : sameOrDisjoint 64 d pb) :
    laneSums V (m.writeElems d vs) (pa + 4 * U) (pb + 4 * U) = laneSums V m (pa + 4 * U) (pb + 4 * U) := by
  unfold sameOrDisjoint at ha hb
  unfold laneSums
  congr 1 <;> exact readElems_congr _ _ _ _ fun x _ _ => readByte_writeElems_of_outside _ _ _ _ (by omega)

/-- A chunk of V elements after the first U leaves the memory of one run of U + V elements. -/
theorem writeElems_chunk {U V d pa pb : Nat} (m : Memory) (hUV : U + V ≤ 16) (ha : sameOrDisjoint 64 d pa)
    (hb : sameOrDisjoint 64 d pb) :
    (m.writeElems d (laneSums U m pa pb)).writeElems (d + 4 * U)
      (laneSums V (m.writeElems d (laneSums U m pa pb)) (pa + 4 * U) (pb + 4 * U)) =
        m.writeElems d (laneSums (U + V) m pa pb) := by
  rw [laneSums_after_writeElems m _ (length_laneSums ..) hUV ha hb, laneSums_add, writeElems_append, length_laneSums]

theorem dispatchWidth_of_not_written {W : Nat} {s : State} (h : ¬ s.block.pointersWritten) :
    dispatchWidth W s = .error .unwrittenPtr := by
  rw [dispatchWidth, readPointers_of_not_written h]

/-- A DISPATCH with its pointers written: the checks, then the chunk loop. -/
theorem dispatchWidth_of_written {W : Nat} {s : State} (h : s.block.pointersWritten) :
    dispatchWidth W s = match pointerFault s.platform (4 * W) 64 s.dstAddr s.aAddr s.bAddr with
      | some f => .error f
      | none => match runChunks W s.dstAddr s.aAddr s.bAddr (chunkOffsets W) s with
        | .error f => .error f
        | .ok t => .ok t.completeCommand := by
  rw [dispatchWidth, readPointers_of_written h]
  rfl

end Sys2Proof.Machine
end

