-- ==== Sys2Proof/Laws/Decode.lean ====
section
/-!
SUPPORT. The fields of a command word, taken apart and put together.
-/

namespace Sys2Proof

@[simp] theorem toBits_ofBits (m : BitVec 2) : (Mode.ofBits m).toBits = m := by revert m; decide

@[simp] theorem ofBits_toBits (m : Mode) : Mode.ofBits m.toBits = m := by cases m <;> rfl

/-- A word is its three fields (R68). -/
theorem eq_append_fields (w : Bits32) : w = rsvdField w ++ modeField w ++ opField w := by
  apply BitVec.eq_of_getLsbD_eq
  intro i hi
  simp only [rsvdField, modeField, opField, BitVec.getLsbD_append, BitVec.getLsbD_extractLsb']
  split
  · simp_all
  · split
    · next h => simp only [show i - 4 < 2 from h, decide_true, Bool.true_and]; congr 1; omega
    · simp only [show i - 4 - 2 < 26 by omega, decide_true, Bool.true_and]; congr 1; omega

theorem rsvdField_append (r : BitVec 26) (m : BitVec 2) (o : BitVec 4) : rsvdField (r ++ m ++ o) = r := by
  apply BitVec.eq_of_getLsbD_eq
  intro i hi
  simp only [rsvdField, BitVec.getLsbD_extractLsb', BitVec.getLsbD_append]
  rw [if_neg (by omega), if_neg (by omega)]
  simp only [hi, decide_true, Bool.true_and]
  congr 1
  omega

theorem modeField_append (r : BitVec 26) (m : BitVec 2) (o : BitVec 4) : modeField (r ++ m ++ o) = m := by
  apply BitVec.eq_of_getLsbD_eq
  intro i hi
  simp only [modeField, BitVec.getLsbD_extractLsb', BitVec.getLsbD_append]
  rw [if_neg (by omega), if_pos (by omega)]
  simp only [hi, decide_true, Bool.true_and]
  congr 1
  omega

theorem opField_append (r : BitVec 26) (m : BitVec 2) (o : BitVec 4) : opField (r ++ m ++ o) = o := by
  apply BitVec.eq_of_getLsbD_eq
  intro i hi
  simp only [opField, BitVec.getLsbD_extractLsb', BitVec.getLsbD_append]
  rw [if_pos (by omega)]
  simp [hi]

end Sys2Proof
end

