-- ==== Sys2Proof/Laws/Float32.lean ====
section
/-!
SUPPORT. The laws of binary32 addition's parts: the fields of a packed word, the exact value of a datum against R83's table,
what rounding answers, and the value and sign of what roundPack packs.
-/

namespace Sys2Proof.Machine

/-! ### Fields -/

theorem f32Exp_eq (x : Bits32) : f32Exp x = x.toNat / 2 ^ 23 % 256 := by
  simp [f32Exp, Nat.shiftRight_eq_div_pow]

theorem f32Frac_eq (x : Bits32) : f32Frac x = x.toNat % 2 ^ 23 := by simp [f32Frac]

theorem f32Sign_eq (x : Bits32) : f32Sign x = decide (2 ^ 31 ≤ x.toNat) := by
  have h := x.isLt
  rw [f32Sign, BitVec.getLsbD, Nat.testBit_eq_decide_div_mod_eq]
  congr 1
  rw [eq_iff_iff]
  omega

theorem f32Exp_lt (x : Bits32) : f32Exp x < 256 := by rw [f32Exp_eq]; omega

theorem f32Frac_lt (x : Bits32) : f32Frac x < 2 ^ 23 := by rw [f32Frac_eq]; omega

/-- A datum is its sign, exponent and fraction. -/
theorem toNat_eq_fields (x : Bits32) :
    x.toNat = (if f32Sign x then 2 ^ 31 else 0) + f32Exp x * 2 ^ 23 + f32Frac x := by
  have h := x.isLt
  rw [f32Sign_eq, f32Exp_eq, f32Frac_eq]
  simp only [decide_eq_true_eq]
  split <;> omega

theorem eq_of_fields {x y : Bits32} (hs : f32Sign x = f32Sign y) (he : f32Exp x = f32Exp y)
    (hf : f32Frac x = f32Frac y) : x = y := by
  apply BitVec.eq_of_toNat_eq
  rw [toNat_eq_fields x, toNat_eq_fields y, hs, he, hf]

/-- The word of a sign and a 31-bit magnitude pattern. -/
theorem toNat_signWord_or (b : Bool) (v : Nat) (hv : v < 2 ^ 31) :
    (signWord b ||| BitVec.ofNat 32 v).toNat = (if b then 2 ^ 31 else 0) + v := by
  have hv' : v % 2 ^ 32 = v := Nat.mod_eq_of_lt (by omega)
  cases b
  · simpa [signWord] using hv'
  · have h := Nat.two_pow_add_eq_or_of_lt hv 1
    simp only [signWord, ↓reduceIte, BitVec.toNat_or, BitVec.toNat_ofNat, hv']
    simpa using h.symm

theorem ofNat_exp_or_frac (e f : Nat) (he : e < 256) (hf : f < 2 ^ 23) :
    BitVec.ofNat 32 (e * 2 ^ 23) ||| BitVec.ofNat 32 f = BitVec.ofNat 32 (e * 2 ^ 23 + f) := by
  apply BitVec.eq_of_toNat_eq
  have h := Nat.two_pow_add_eq_or_of_lt hf e
  simp only [BitVec.toNat_or, BitVec.toNat_ofNat]
  rw [Nat.mod_eq_of_lt (by omega), Nat.mod_eq_of_lt (by omega), Nat.mod_eq_of_lt (by omega), Nat.mul_comm e, h]

theorem f32Sign_signWord_or (b : Bool) (v : Nat) (hv : v < 2 ^ 31) :
    f32Sign (signWord b ||| BitVec.ofNat 32 v) = b := by
  rw [f32Sign_eq, toNat_signWord_or b v hv]
  cases b <;> (simp; try omega)

theorem f32Exp_signWord_or (b : Bool) (v : Nat) (hv : v < 2 ^ 31) :
    f32Exp (signWord b ||| BitVec.ofNat 32 v) = v / 2 ^ 23 := by
  rw [f32Exp_eq, toNat_signWord_or b v hv]
  cases b <;> (simp; try omega)

theorem f32Frac_signWord_or (b : Bool) (v : Nat) (hv : v < 2 ^ 31) :
    f32Frac (signWord b ||| BitVec.ofNat 32 v) = v % 2 ^ 23 := by
  rw [f32Frac_eq, toNat_signWord_or b v hv]
  cases b <;> (simp; try omega)

/-! ### The value of a datum, as R83's table gives it -/

/-- For a finite datum f32Units is val(x) of R83's table in units of 2^-149: the zero and subnormal rows, then the normal
row. -/
theorem f32Units_eq_val (x : Bits32) :
    (f32Units x : ℚ) * 2 ^ (-149 : ℤ) =
      (if f32Sign x then -1 else 1) *
        (if f32Exp x = 0 then (f32Frac x : ℚ) * 2 ^ (-149 : ℤ)
          else (2 ^ 23 + f32Frac x : ℚ) * 2 ^ ((f32Exp x : ℤ) - 150)) := by
  have hm : (f32Mag x : ℚ) * 2 ^ (-149 : ℤ) =
      (if f32Exp x = 0 then (f32Frac x : ℚ) * 2 ^ (-149 : ℤ)
        else (2 ^ 23 + f32Frac x : ℚ) * 2 ^ ((f32Exp x : ℤ) - 150)) := by
    unfold f32Mag
    split
    · rfl
    · next h =>
      push_cast
      rw [mul_assoc, ← zpow_natCast, ← zpow_add₀ (by norm_num)]
      congr 2
      omega
  rw [← hm, f32Units]
  split <;> push_cast <;> ring

theorem natAbs_f32Units (x : Bits32) : (f32Units x).natAbs = f32Mag x := by
  unfold f32Units
  split <;> simp

/-- fadd32 on finite operands: the exact sum, zero or rounded (R84). -/
theorem fadd32_of_finite {a b : Bits32} (ha : isFinite a = true) (hb : isFinite b = true) :
    fadd32 a b =
      if f32Units a + f32Units b = 0 then (if f32Sign a && f32Sign b then 0x80000000#32 else 0x00000000#32)
      else roundPack (f32Units a + f32Units b) := by
  have h1 : f32Exp a ≠ 255 := by simpa [isFinite] using ha
  have h2 : f32Exp b ≠ 255 := by simpa [isFinite] using hb
  simp [fadd32, isNaN, isInf, h1, h2]

/-! ### Rounding -/

/-- roundTiesToEven answers a whole number within half a unit, and an even one when it is exactly half a unit away. -/
theorem roundTiesToEven_spec (m k : Nat) :
    2 * m ≤ 2 * (roundTiesToEven m k * 2 ^ k) + 2 ^ k ∧ 2 * (roundTiesToEven m k * 2 ^ k) ≤ 2 * m + 2 ^ k ∧
      ((2 * m = 2 * (roundTiesToEven m k * 2 ^ k) + 2 ^ k ∨ 2 * (roundTiesToEven m k * 2 ^ k) = 2 * m + 2 ^ k) →
        roundTiesToEven m k % 2 = 0) := by
  have hpos : 0 < 2 ^ k := Nat.two_pow_pos k
  have hdiv := Nat.div_add_mod m (2 ^ k)
  have hlt := Nat.mod_lt m hpos
  unfold roundTiesToEven
  generalize m / 2 ^ k = q at *
  generalize m % 2 ^ k = r at *
  generalize 2 ^ k = p at *
  have h1 : (q + 1) * p = p * q + p := by ring
  have h0 : q * p = p * q := by ring
  simp only
  split
  · rw [h0]; omega
  · split
    · rw [h1]; omega
    · rcases Nat.mod_two_eq_zero_or_one q with hq | hq
      · rw [hq, Nat.add_zero, h0]; omega
      · rw [hq, h1]; omega

/-- With k = 0 nothing is rounded. -/
@[simp] theorem roundTiesToEven_zero (m : Nat) : roundTiesToEven m 0 = m := by
  simp [roundTiesToEven, Nat.mod_one]

/-- The significand roundPack packs: below 2^24, normalised unless the exponent is the clamped one, and worth the rounded
magnitude. -/
theorem roundSignificand_spec (m : Nat) (hm : m ≠ 0) :
    (roundSignificand m).1 < 2 ^ 24 ∧ ((roundSignificand m).2 ≠ 0 → 2 ^ 23 ≤ (roundSignificand m).1) ∧
      (roundSignificand m).1 * 2 ^ (roundSignificand m).2 =
        roundTiesToEven m (m.log2 - 23) * 2 ^ (m.log2 - 23) := by
  obtain ⟨hlo, hhi, -⟩ := roundTiesToEven_spec m (m.log2 - 23)
  have hl1 : 2 ^ m.log2 ≤ m := Nat.log2_self_le hm
  have hl2 : m < 2 ^ (m.log2 + 1) := Nat.lt_log2_self
  have hn24 : roundTiesToEven m (m.log2 - 23) ≤ 2 ^ 24 := by
    by_contra hc
    have h1 : (2 ^ 24 + 1) * 2 ^ (m.log2 - 23) ≤ roundTiesToEven m (m.log2 - 23) * 2 ^ (m.log2 - 23) :=
      Nat.mul_le_mul_right _ (by omega)
    have h2 : 2 ^ (m.log2 + 1) ≤ 2 ^ 24 * 2 ^ (m.log2 - 23) := by
      rw [← pow_add]; exact Nat.pow_le_pow_right (by norm_num) (by omega)
    have h3 : (2 ^ 24 + 1) * 2 ^ (m.log2 - 23) = 2 ^ 24 * 2 ^ (m.log2 - 23) + 2 ^ (m.log2 - 23) := by ring
    have h4 : 0 < 2 ^ (m.log2 - 23) := Nat.two_pow_pos _
    omega
  have hn23 : m.log2 - 23 ≠ 0 → 2 ^ 23 ≤ roundTiesToEven m (m.log2 - 23) := by
    intro hk
    by_contra hc
    have h1 : roundTiesToEven m (m.log2 - 23) * 2 ^ (m.log2 - 23) ≤ (2 ^ 23 - 1) * 2 ^ (m.log2 - 23) :=
      Nat.mul_le_mul_right _ (by omega)
    have h2 : 2 ^ 23 * 2 ^ (m.log2 - 23) = 2 ^ m.log2 := by rw [← pow_add]; congr 1; omega
    have h3 : (2 ^ 23 - 1) * 2 ^ (m.log2 - 23) + 2 ^ (m.log2 - 23) = 2 ^ 23 * 2 ^ (m.log2 - 23) := by
      generalize 2 ^ (m.log2 - 23) = p
      omega
    have h4 : 0 < 2 ^ (m.log2 - 23) := Nat.two_pow_pos _
    omega
  unfold roundSignificand
  simp only
  split
  · next h => rw [h, pow_succ]; exact ⟨by norm_num, fun _ => le_refl _, by ring⟩
  · next h => exact ⟨by omega, hn23, rfl⟩

/-- What roundPack packs, when the rounded exponent does not overflow: a finite datum of the sum's sign whose magnitude is
the rounded one, and whose lowest bit is the significand's. -/
theorem roundPack_finite (x : Int) (hx : x ≠ 0) (hk : ¬ 253 < (roundSignificand x.natAbs).2) :
    isFinite (roundPack x) = true ∧ f32Sign (roundPack x) = decide (x < 0) ∧
      f32Mag (roundPack x) =
        roundTiesToEven x.natAbs (x.natAbs.log2 - 23) * 2 ^ (x.natAbs.log2 - 23) ∧
      f32Frac (roundPack x) % 2 = (roundSignificand x.natAbs).1 % 2 := by
  obtain ⟨h24, h23, hval⟩ := roundSignificand_spec x.natAbs (by omega)
  rw [← hval]
  unfold roundPack
  simp only [if_neg hk]
  generalize (roundSignificand x.natAbs).1 = n at *
  generalize (roundSignificand x.natAbs).2 = k at *
  split
  · next hn =>
    have hk0 : k = 0 := by
      by_contra h
      have := h23 h
      omega
    subst hk0
    have hv : n < 2 ^ 31 := by omega
    refine ⟨?_, f32Sign_signWord_or _ _ hv, ?_, ?_⟩
    · simp only [isFinite, f32Exp_signWord_or _ _ hv, decide_eq_true_eq]; omega
    · rw [f32Mag, f32Exp_signWord_or _ _ hv, f32Frac_signWord_or _ _ hv, if_pos (by omega)]; omega
    · rw [f32Frac_signWord_or _ _ hv]; omega
  · next hn =>
    rw [BitVec.or_assoc, ofNat_exp_or_frac _ _ (by omega) (by omega)]
    have hv : (k + 1) * 2 ^ 23 + (n - 2 ^ 23) < 2 ^ 31 := by omega
    have he : ((k + 1) * 2 ^ 23 + (n - 2 ^ 23)) / 2 ^ 23 = k + 1 := by omega
    have hf : ((k + 1) * 2 ^ 23 + (n - 2 ^ 23)) % 2 ^ 23 = n - 2 ^ 23 := by omega
    refine ⟨?_, f32Sign_signWord_or _ _ hv, ?_, ?_⟩
    · simp only [isFinite, f32Exp_signWord_or _ _ hv, decide_eq_true_eq, he]; omega
    · rw [f32Mag, f32Exp_signWord_or _ _ hv, f32Frac_signWord_or _ _ hv, he, hf, if_neg (by omega),
        show 2 ^ 23 + (n - 2 ^ 23) = n by omega, Nat.add_sub_cancel]
    · rw [f32Frac_signWord_or _ _ hv, hf]; omega

/-- What roundPack packs when the rounded exponent overflows: the infinity of the sum's sign. -/
theorem roundPack_overflow (x : Int) (hk : 253 < (roundSignificand x.natAbs).2) :
    roundPack x = signWord (decide (x < 0)) ||| 0x7F800000#32 := by
  unfold roundPack
  simp only [if_pos hk]

/-! ### NAN_PROP -/

/-- L1 (R86): NAN_PROP answers a quiet NaN, whatever its open bits are. -/
theorem isQNaN_nanProp (a b : Bits32) : isQNaN (nanProp a b) = true := by
  have hbit : ∀ k, k < 9 → (nanProp a b).getLsbD (22 + k) = true := by
    intro k hk
    rw [nanProp, BitVec.getLsbD_or]
    have : (0x7FC00000#32).getLsbD (22 + k) = true := by
      have : ∀ j : Fin 9, (0x7FC00000#32).getLsbD (22 + j) = true := by decide
      exact this ⟨k, hk⟩
    rw [this, Bool.or_true]
  have he : f32Exp (nanProp a b) = 255 := by
    have : (nanProp a b).extractLsb' 23 8 = 255#8 := by
      apply BitVec.eq_of_getLsbD_eq
      intro i hi
      rw [BitVec.getLsbD_extractLsb', show 23 + i = 22 + (1 + i) by omega, hbit _ (by omega)]
      have : ∀ j : Fin 8, (255#8).getLsbD j = true := by decide
      simp [hi, this ⟨i, hi⟩]
    rw [f32Exp, this]; rfl
  have hf : f32Frac (nanProp a b) ≠ 0 := by
    intro h
    have h22 := hbit 0 (by omega)
    rw [f32Frac_eq] at h
    rw [Nat.add_zero, BitVec.getLsbD, Nat.testBit_eq_decide_div_mod_eq, decide_eq_true_eq] at h22
    omega
  simp [isQNaN, isNaN, he, hf, hbit 0 (by omega)]

end Sys2Proof.Machine
end

