-- ==== Sys2Proof/WellFormed.lean ====
section
/-!
DEFINITION. Well-formed commands and well-formed host operations.

A command has no numeric operand: its one operand, the mode, is a name from a closed list, so every term of Instr can be
encoded (R68, R71, R74) and the check of a command has no case that fails. A host operation carries numbers: its check says
which ones the syntax of R79 and R81 can write.
-/

namespace Sys2Proof

/-- Every command can be encoded: VADD commands have MODE 0 (R71) and a mode is one of the four of R72. -/
def Instr.wellFormed : Instr → Bool
  | .vadd4 | .vadd8 | .vadd16 => true
  | .dispatch .narrow | .dispatch .medium | .dispatch .wide | .dispatch .unsupported => true

/-- A register access names an offset inside the 0x40-byte window (R20) and a written value fits its width (R81). -/
def HostOp.wellFormed : HostOp → Bool
  | .regRead offset _ => decide (offset < 0x40)
  | .regWrite offset width value => decide (offset < 0x40) && decide (value.toNat < 2 ^ width)
  | .memRead _ _ | .memWrite _ _ | .reset => true

end Sys2Proof
end

