-- ==== Sys2Proof/Laws/PerInstr.lean ====
section
/-!
SUPPORT. The family TableRow: what the opcode table says of the word of each command, per constructor of Instr.
-/

namespace Sys2Proof.Laws.TableRow

/-- The mask of a command's row in spec/opcode_table.json. -/
def mask : Instr → Bits32
  | .vadd4 | .vadd8 | .vadd16 => 0xFFFFFFFF#32
  | .dispatch _ => 0xFFFFFFCF#32

/-- The match value of a command's row in spec/opcode_table.json. -/
def matchValue : Instr → Bits32
  | .vadd4 => 0x00000001#32
  | .vadd8 => 0x00000002#32
  | .vadd16 => 0x00000003#32
  | .dispatch _ => 0x00000004#32

/-- A well-formed command's word matches its row of the table, has RSVD zero (R70), and decodes to the command (R73). -/
def Statement (i : Instr) : Prop :=
  i.wellFormed = true → encode i &&& mask i = matchValue i ∧ rsvdField (encode i) = 0 ∧ decode (encode i) = .ok i

theorem vadd4 : Statement .vadd4 := fun _ => ⟨rfl, rfl, rfl⟩

theorem vadd8 : Statement .vadd8 := fun _ => ⟨rfl, rfl, rfl⟩

theorem vadd16 : Statement .vadd16 := fun _ => ⟨rfl, rfl, rfl⟩

theorem dispatch (mode : Mode) : Statement (.dispatch mode) := by
  intro _
  cases mode <;> exact ⟨rfl, rfl, rfl⟩

end Sys2Proof.Laws.TableRow
end

