-- ==== Sys2Proof/Tests/Slice0.lean ====
section
/-!
SUPPORT. The package's own tests. Expected values come from spec/95_test_vectors.md (the vector's number stands at the test)
and from the encoding tables of spec/30_encoding.md. The second half holds, for each statement with hypotheses, a named theorem
with concrete states and operands that meet them.
-/

namespace Sys2Proof.Tests

open Sys2Proof.Machine

/-! ### Well-formedness: an ill-formed term for each check -/

theorem test_illformed_read_offset : (HostOp.regRead 0x40 32).wellFormed = false := by decide
theorem test_illformed_write_offset : (HostOp.regWrite 0x40 32 0).wellFormed = false := by decide
theorem test_illformed_write_value : (HostOp.regWrite 0x00 32 0x100000000#64).wellFormed = false := by decide
theorem test_wellformed_instr (i : Instr) : i.wellFormed = true := by
  cases i with
  | dispatch m => cases m <;> rfl
  | _ => rfl

/-! ### Decoding: words written from R68, R69 and R72 (RSVD_MODE_OP), and the reserved words H-1 to H-7 -/

theorem test_decode_vadd4 : decode 0b00000000000000000000000000_00_0001#32 = .ok .vadd4 := by rfl
theorem test_decode_vadd8 : decode 0b00000000000000000000000000_00_0010#32 = .ok .vadd8 := by rfl
theorem test_decode_vadd16 : decode 0b00000000000000000000000000_00_0011#32 = .ok .vadd16 := by rfl
theorem test_decode_dispatch_narrow : decode 0b00000000000000000000000000_00_0100#32 = .ok (.dispatch .narrow) := by rfl
theorem test_decode_dispatch_medium : decode 0b00000000000000000000000000_01_0100#32 = .ok (.dispatch .medium) := by rfl
theorem test_decode_dispatch_wide : decode 0b00000000000000000000000000_10_0100#32 = .ok (.dispatch .wide) := by rfl
theorem test_decode_dispatch_raw3 :
    decode 0b00000000000000000000000000_11_0100#32 = .ok (.dispatch .unsupported) := by rfl
theorem test_decode_h1_op0 : decode 0x00000000#32 = .error .opReserved := by rfl
theorem test_decode_h2_op5 : decode 0x00000005#32 = .error .opReserved := by rfl
theorem test_decode_h4_vadd_mode : decode 0x00000011#32 = .error .modeSet := by rfl
theorem test_decode_h5_rsvd6 : decode 0x00000044#32 = .error .rsvdSet := by rfl
theorem test_decode_h6_rsvd31 : decode 0x80000001#32 = .error .rsvdSet := by rfl
theorem test_encode_words : encode .vadd4 = 0x00000001#32 ∧ encode .vadd8 = 0x00000002#32 ∧
    encode .vadd16 = 0x00000003#32 ∧ encode (.dispatch .narrow) = 0x00000004#32 ∧
    encode (.dispatch .medium) = 0x00000014#32 ∧ encode (.dispatch .wide) = 0x00000024#32 ∧
    encode (dispatchRaw 3) = 0x00000034#32 := by decide
theorem test_default_mode : encode (Instr.dispatchOf none) = 0x00000004#32 := by rfl
theorem test_decodeTableWord : decodeTableWord 32 2 = some .vadd8 ∧ decodeTableWord 32 0x11 = none := ⟨rfl, rfl⟩
theorem test_withFetchWord_runs : step (State.reset.withFetchWord 32 0x34) =
    exec (.dispatch .unsupported) (State.reset.acceptCommand 0x34) := by rfl

/-! ### Binary32 addition: the vectors F1 to F38 -/

/-- The rows of the table that a test checks, with the operands in both orders. -/
def faddRows (rows : List (Bits32 × Bits32 × Bits32)) : Bool :=
  rows.all fun r => decide (fadd32 r.1 r.2.1 = r.2.2) && decide (fadd32 r.2.1 r.1 = r.2.2)

theorem test_fadd_F1_F5 : faddRows [
    (0x3F800000, 0x40000000, 0x40400000), (0x3FC00000, 0x3F000000, 0x40000000),
    (0x3F800000, 0xC0000000, 0xBF800000), (0x3DCCCCCD, 0x3E4CCCCD, 0x3E99999A),
    (0x40400000, 0x3DCCCCCD, 0x40466666)] = true := by decide +kernel

theorem test_fadd_F6_F15_zeros : faddRows [
    (0x00000000, 0x00000000, 0x00000000), (0x00000000, 0x80000000, 0x00000000),
    (0x80000000, 0x80000000, 0x80000000), (0x3F800000, 0xBF800000, 0x00000000),
    (0x42C80000, 0xC2C80000, 0x00000000), (0xC0000000, 0x40000000, 0x00000000),
    (0x80000000, 0x3F800000, 0x3F800000), (0x80000000, 0x00000001, 0x00000001),
    (0x80000000, 0x80000001, 0x80000001)] = true := by decide +kernel

theorem test_fadd_F16_F20_overflow : faddRows [
    (0x7F7FFFFF, 0x7F7FFFFF, 0x7F800000), (0xFF7FFFFF, 0xFF7FFFFF, 0xFF800000),
    (0x7F7FFFFF, 0x73000000, 0x7F800000), (0x7F7FFFFF, 0x73000001, 0x7F800000),
    (0x7F7FFFFF, 0x72FFFFFF, 0x7F7FFFFF)] = true := by decide +kernel

theorem test_fadd_F21_F26_subnormal : faddRows [
    (0x00000001, 0x00000001, 0x00000002), (0x80000001, 0x80000001, 0x80000002),
    (0x00000001, 0x80000001, 0x00000000), (0x00400000, 0x00400000, 0x00800000),
    (0x007FFFFF, 0x00000001, 0x00800000), (0x00800000, 0x80000001, 0x007FFFFF)] = true := by decide +kernel

theorem test_fadd_F27_F34_ties : faddRows [
    (0x4B800000, 0x3F800000, 0x4B800000), (0x4B800000, 0x40400000, 0x4B800002),
    (0x4B800001, 0x3F800000, 0x4B800002), (0x3F800000, 0x33800000, 0x3F800000),
    (0x3F800000, 0x33800001, 0x3F800001), (0x3F7FFFFF, 0x33800000, 0x3F800000),
    (0x3F7FFFFF, 0x33000000, 0x3F800000)] = true := by decide +kernel

theorem test_fadd_F35_F38_infinities : faddRows [
    (0x7F800000, 0x3F800000, 0x7F800000), (0xFF800000, 0x7F7FFFFF, 0xFF800000),
    (0x7F800000, 0x7F800000, 0x7F800000), (0xFF800000, 0xFF800000, 0xFF800000)] = true := by decide +kernel

/-- F39 and F42: the result is NAN_PROP's, of which only L1 and L2 are known. -/
theorem test_fadd_F39_inf_minus_inf : isQNaN (fadd32 0x7F800000#32 0xFF800000#32) = true := isQNaN_nanProp _ _
theorem test_fadd_F42_snan_qnan : isQNaN (fadd32 0x7F800001#32 0xFFC00001#32) = true := isQNaN_nanProp _ _

/-! ### Commands: the vectors of section 3, one step each -/

/-- Operand A of L1-4: 1 .. 16. -/
def operandA : List Bits32 :=
  [0x3F800000, 0x40000000, 0x40400000, 0x40800000, 0x40A00000, 0x40C00000, 0x40E00000, 0x41000000,
   0x41100000, 0x41200000, 0x41300000, 0x41400000, 0x41500000, 0x41600000, 0x41700000, 0x41800000]

/-- Operand B of L1-4. -/
def operandB : List Bits32 :=
  [0x40000000, 0x3F800000, 0x40800000, 0x40400000, 0x40C00000, 0x40A00000, 0x41000000, 0x40E00000,
   0x41200000, 0x41100000, 0x41400000, 0x41300000, 0x41600000, 0x41500000, 0x41800000, 0x41700000]

/-- The result of L1-4. -/
def resultL14 : List Bits32 :=
  [0x40400000, 0x40400000, 0x40E00000, 0x40E00000, 0x41300000, 0x41300000, 0x41700000, 0x41700000,
   0x41980000, 0x41980000, 0x41B80000, 0x41B80000, 0x41D80000, 0x41D80000, 0x41F80000, 0x41F80000]

/-- The common set-up of section 3: the pointers written, the operands of L1-4 at the given bases, one operation to perform. -/
def vector (d a b baseA baseB : Nat) (op : HostOp) : State :=
  { State.reset with
    block := { Block.reset with
      dstPtr := ⟨BitVec.ofNat 64 d, true⟩, aPtr := ⟨BitVec.ofNat 64 a, true⟩, bPtr := ⟨BitVec.ofNat 64 b, true⟩ }
    mem := (Memory.writeElems [] baseA operandA).writeElems baseB operandB
    pending := [op] }

/-- What a vector's row checks of a next state: n elements at an address, KCOUNT and STATUS. -/
def seen (o : Host.Outcome State Fault Refusal) (p n : Nat) : Option (List Bits32 × Bits32 × Bits32) :=
  match o with
  | .next t => some (t.mem.readElems p n, t.block.kcount, t.block.statusWord)
  | _ => none

/-- The fault of an outcome, if it is one. -/
def faultOf (o : Host.Outcome State Fault Refusal) : Option Fault :=
  match o with
  | .fault f => some f
  | _ => none

theorem test_V4_1 : seen (step (vector 0x1080 0x1000 0x1040 0x1000 0x1040 (issue .vadd4))) 0x1080 4 =
    some (resultL14.take 4, 1, 1) := by decide +kernel
theorem test_V4_9_top_of_space :
    faultOf (step (vector 0x1080 0xFFFFFFFFFFFFFFF0 0x1040 0x1000 0x1040 (issue .vadd4))) = some .oob := by
  decide +kernel
theorem test_V8_1 : seen (step (vector 0x1080 0x1000 0x1040 0x1000 0x1040 (issue .vadd8))) 0x1080 8 =
    some (resultL14.take 8, 1, 1) := by decide +kernel
theorem test_V8_2_misaligned :
    faultOf (step (vector 0x1090 0x1000 0x1040 0x1000 0x1040 (issue .vadd8))) = some .misaligned := by decide +kernel
theorem test_V16_1 : seen (step (vector 0x1080 0x1000 0x1040 0x1000 0x1040 (issue .vadd16))) 0x1080 16 =
    some (resultL14, 1, 1) := by decide +kernel
theorem test_V16_3_in_place : seen (step (vector 0x1040 0x1000 0x1040 0x1000 0x1040 (issue .vadd16))) 0x1040 16 =
    some (resultL14, 1, 1) := by decide +kernel
theorem test_DS_8_narrow_at_16 :
    seen (step (vector 0x1090 0x1010 0x1050 0x1010 0x1050 (issue (.dispatch .narrow)))) 0x1090 16 =
      some (resultL14, 4, 1) := by decide +kernel
theorem test_DS_12_medium_in_place :
    seen (step (vector 0x1000 0x1000 0x1040 0x1000 0x1040 (issue (.dispatch .medium)))) 0x1000 16 =
      some (resultL14, 2, 1) := by decide +kernel

/-! ### Witnesses: each statement's hypotheses are met -/

/-- A reset state with operations to perform. -/
def idle (ops : List HostOp) : State := { State.reset with pending := ops }

/-- The vector set-up with nothing to perform. -/
def ready (d a b : Nat) : State := vector d a b 0x1000 0x1040 .reset

theorem contract_of_check {s : State} {align size : Nat} (hw : s.block.pointersWritten)
    (h : pointerFault s.platform align size s.dstAddr s.aAddr s.bAddr = none) : s.contract align size :=
  ⟨hw, (pointerFault_eq_none_iff ..).1 h⟩

theorem ready_written (d a b : Nat) : (ready d a b).block.pointersWritten := ⟨rfl, rfl, rfl⟩

/-- The contract of each command and each DISPATCH mode, at the disjoint bases of section 3 and in place. -/
theorem test_witness_contracts :
    (ready 0x1090 0x1010 0x1050).contract 16 16 ∧ (ready 0x10A0 0x1020 0x1060).contract 32 32 ∧
      (ready 0x1080 0x1000 0x1040).contract 64 64 ∧ (ready 0x1090 0x1010 0x1050).contract 16 64 ∧
      (ready 0x10A0 0x1020 0x1060).contract 32 64 ∧ (ready 0x1000 0x1000 0x1040).contract 64 64 ∧
      (ready 0x1FC0 0x1000 0x1040).contract 16 64 := by
  refine ⟨?_, ?_, ?_, ?_, ?_, ?_, ?_⟩ <;> exact contract_of_check (ready_written ..) (by decide +kernel)

/-- VaddIsIdempotentWhenDisjoint: bases apart, for each width. -/
theorem test_witness_disjoint :
    ∀ n ∈ [16, 32, 64], (ready 0x1080 0x1000 0x1040).contract n n ∧
      (ready 0x1080 0x1000 0x1040).dstAddr ≠ (ready 0x1080 0x1000 0x1040).aAddr ∧
      (ready 0x1080 0x1000 0x1040).dstAddr ≠ (ready 0x1080 0x1000 0x1040).bAddr := by
  intro n hn
  refine ⟨contract_of_check (ready_written ..) ?_, by decide, by decide⟩
  revert n
  decide +kernel

/-- LaneOrderIsImmaterial: an order of the lanes that is not the ascending one. -/
theorem test_witness_lanes : List.Perm [3, 1, 0, 2] (List.range 4) := by decide

/-- VaddFrame, DispatchFrame, CommandsNeverReachWindow: every command answers a next state somewhere. -/
theorem test_witness_commands_complete : ∀ i ∈ [Instr.vadd4, .vadd8, .vadd16, .dispatch .narrow, .dispatch .medium,
    .dispatch .wide, .dispatch .unsupported], (seen (exec i (ready 0x1080 0x1000 0x1040)) 0 0).isSome = true := by
  decide +kernel

/-- CommandsNeverReachWindow: the window of that state has addresses. -/
theorem test_witness_window : (ready 0x1080 0x1000 0x1040).platform.blockBase.toNat ≤ 0x3F ∧
    0x3F < (ready 0x1080 0x1000 0x1040).platform.blockBase.toNat + 0x40 := by decide

/-- DispatchEqualsVaddSequence, Inv: the platform of State.reset is legal. -/
theorem test_witness_platform : Platform.legal State.reset.platform := by
  refine ⟨?_, ?_, ?_⟩ <;> decide

/-- ArrayCheckCoversChunks: the whole-array check passes for each width, and the last chunk exists. -/
theorem test_witness_array_check : ∀ W ∈ [4, 8, 16],
    pointerFault Config.defaultPlatform (4 * W) 64 0x1080 0x1000 0x1040 = none ∧ 16 / W - 1 < 16 / W := by
  decide +kernel

/-- UnwrittenPointerFaults: after reset, and with one register left unwritten (V4-8). -/
theorem test_witness_unwritten : ¬ State.reset.block.pointersWritten ∧
    ¬ ({ Block.reset with dstPtr := ⟨0x1080, true⟩, aPtr := ⟨0x1000, true⟩ } : Block).pointersWritten := by
  simp [Block.pointersWritten, State.reset, Block.reset, PtrReg.reset]

/-- The stop on an unwritten pointer register, as the vectors have it: V4-8, DS-5 and H-12 (DS-4, which does not stop, is
test_withFetchWord_runs). -/
theorem test_V4_8_DS_5_H_12_unwritten :
    step { State.reset with
      block := { Block.reset with dstPtr := ⟨0x1080, true⟩, aPtr := ⟨0x1000, true⟩ }
      pending := [.regWrite 0x00 32 0x00000001] } = .fault .unwrittenPtr ∧
    step { State.reset with pending := [.regWrite 0x00 32 0x00000004] } = .fault .unwrittenPtr ∧
    step { State.reset with pending := [.regRead 0x18 64] } = .fault .unwrittenPtr :=
  ⟨rfl, rfl, rfl⟩

/-- MisalignedPointerFaults: a pointer four bytes off, at every alignment (V4-6). -/
theorem test_witness_misaligned : ∀ n ∈ [16, 32, 64], ¬ (ready 0x1080 0x1004 0x1040).pointersAligned n := by
  intro n hn
  rw [State.pointersAligned, ← aligned_iff]
  revert n
  decide

/-- OutOfBoundsFaults: aligned pointers, A in memory the platform does not admit (V4-7), for each range checked. -/
theorem test_witness_oob : ∀ p ∈ [(16, 16), (32, 32), (64, 64), (16, 64), (32, 64)],
    (ready 0x1080 0x3000 0x1040).pointersAligned p.1 ∧ ¬ (ready 0x1080 0x3000 0x1040).pointersAdmitted p.2 := by
  intro p hp
  constructor
  · rw [State.pointersAligned, ← aligned_iff]
    revert p
    decide
  · intro h
    have := (h.1.2 0x3000 (by decide) (by
      simp only [List.mem_cons, List.not_mem_nil, or_false] at hp
      rcases hp with rfl | rfl | rfl | rfl | rfl <;> decide)).1
    revert this
    decide

/-- DispatchPartialOverlapFaults: DS-6 for narrow, and the same 32 bytes apart for medium. -/
theorem test_witness_overlap : ∀ p ∈ [(16, 0x1010), (32, 0x1020)],
    (ready p.2 0x1000 0x1080).pointersAligned p.1 ∧ (ready p.2 0x1000 0x1080).pointersAdmitted 64 ∧
      ¬ (ready p.2 0x1000 0x1080).noPartialOverlap 64 := by
  intro p hp
  simp only [List.mem_cons, List.not_mem_nil, or_false] at hp
  rcases hp with rfl | rfl
  · refine ⟨(aligned_iff ..).1 (by decide), (inBounds_iff ..).1 (by decide +kernel), ?_⟩
    rw [State.noPartialOverlap, ← partlyOverlaps_eq_false_iff, ← partlyOverlaps_eq_false_iff]
    decide
  · refine ⟨(aligned_iff ..).1 (by decide), (inBounds_iff ..).1 (by decide +kernel), ?_⟩
    rw [State.noPartialOverlap, ← partlyOverlaps_eq_false_iff, ← partlyOverlaps_eq_false_iff]
    decide

/-- ReservedWordRaisesErrCmd and the reserved clause of StepRunsDecodedCommand: a word for each way of being reserved. -/
theorem test_witness_reserved : ∀ w ∈ [0x00000040#32, 0x80000001#32, 0x00000000#32, 0x00000005#32, 0x0000000F#32,
    0x00000011#32, 0x00000033#32], ∃ r, decode w = .error r := by
  intro w hw
  simp only [List.mem_cons, List.not_mem_nil, or_false] at hw
  rcases hw with rfl | rfl | rfl | rfl | rfl | rfl | rfl <;> exact ⟨_, rfl⟩

/-- The statements about a step whose next operation is given: each operation stands at the head of the queue of some state. -/
theorem test_witness_pending (op : HostOp) : (idle [op]).pending = op :: [] := rfl

/-- IdleStepHoldsState. -/
theorem test_witness_idle : State.reset.pending = [] := rfl

/-- PointerReadReturnsValueOrFaults: a register of each kind. -/
theorem test_witness_pointer_flags : (ready 0x1080 0x1000 0x1040).block.aPtr.written = true ∧
    State.reset.block.aPtr.written = false := ⟨rfl, rfl⟩

/-- IllegalAccessFaultsExactly: legal and illegal accesses at the ends of the list (H-14 to H-17). -/
theorem test_witness_accesses :
    (∀ p ∈ [(0x0C, 32), (0x00, 64), (0x10, 32), (0x02, 32), (0x28, 64), (0x08, 16)],
      faultOf (step (idle [.regRead p.1 p.2])) = some .regAccess) ∧
    (∀ p ∈ [(0x00, 32), (0x20, 64)], faultOf (step (idle [.regWrite p.1 p.2 0])) = none) := by decide +kernel

/-- RegisterReadIsRepeatable, OnlyKernelCommandsWriteMemory, StepKeepsPlatform, DoneFromFirstCommandUntilReset, StepKeepsInv:
the step answers a next state. -/
theorem test_witness_step_next :
    (∃ t, step (idle [.regRead 0x04 32, .regRead 0x04 32]) = .next t) ∧
    (∃ t, step (idle [.regWrite 0x00 32 0x34]) = .next t) ∧ (∃ t, step (idle [.regWrite 0x00 32 0x05]) = .next t) ∧
    (∃ t, step (idle [.reset]) = .next t) := ⟨⟨_, rfl⟩, ⟨_, rfl⟩, ⟨_, rfl⟩, ⟨_, rfl⟩⟩

/-- The clause of OnlyKernelCommandsWriteMemory on CMD writes: both kinds of word. -/
theorem test_witness_error_words : decode ((0x34#64).setWidth 32) = .ok (.dispatch .unsupported) ∧
    ∃ r, decode ((0x05#64).setWidth 32) = .error r := ⟨rfl, _, rfl⟩

/-- HostBytesAssembleLittleEndian and HostMemoryReadReturnsBytes: ranges below the top of the space and off the window, at its
edge. -/
theorem test_witness_host_memory :
    2 ^ 64 - 4 + 4 ≤ 2 ^ State.reset.platform.addrW ∧ State.reset.platform.blockBase.toNat + 0x40 ≤ 0x40 ∧
      (∃ t, step (idle [.memWrite 0x40 [0x00, 0x00, 0x80, 0x3F]]) = .next t ∧
        t.mem.readElem 0x40 = 0x3F800000#32) ∧
      0x1000 + 4 ≤ ({ State.reset.platform with blockBase := 0x2000 } : Platform).blockBase.toNat := by
  refine ⟨by decide, by decide, ⟨_, rfl, by decide⟩, by decide⟩

/-- AdmissionIsByteWise: an admitted range and its last bytes. -/
theorem test_witness_admission : admitR Config.defaultPlatform 0x1FC0 64 = true ∧
    admitW Config.defaultPlatform 0x1FC0 64 = true ∧ admitR Config.defaultPlatform 0x1FE0 64 = false := by
  decide +kernel

/-- Inv holds of a state before the first command and of one after a command; the statements about Inv are about both. -/
theorem test_witness_inv :
    (idle [.regRead 0x04 32]).Inv ∧ (idle []).block.done = false ∧
      ({ idle [] with block := { Block.reset with cmd := 5, done := true, errCmd := true } } : State).Inv := by
  have hp := test_witness_platform
  refine ⟨⟨rfl, rfl, ?_, hp⟩, rfl, ⟨rfl, rfl, ?_, hp⟩⟩
  · simp [Block.consistent, idle, State.reset, Block.reset]
  · simp only [Block.consistent, ↓reduceIte]
    rfl

/-- The cases of FaddIsNanExactly, FaddCommutes and FaddPropagatesInfinity. -/
theorem test_witness_fadd_classes : isNaN 0x7FC00000#32 = true ∧ isNaN 0x7F800001#32 = true ∧
    isNaN 0x3F800000#32 = false ∧ isInf 0x7F800000#32 = true ∧ isInf 0xFF800000#32 = true ∧
    f32Sign 0x7F800000#32 ≠ f32Sign 0xFF800000#32 ∧ isFinite 0x7F7FFFFF#32 = true ∧ isFinite 0x80000000#32 = true := by
  decide

/-- FaddExactWhenRepresentable and FaddKeepsSignOfSum: 1 + 2 = 3, and 1 + (-2) = -1. -/
theorem test_witness_fadd_exact :
    isFinite 0x3F800000#32 = true ∧ isFinite 0x40000000#32 = true ∧ isFinite 0x40400000#32 = true ∧
      f32Units 0x3F800000#32 + f32Units 0x40000000#32 ≠ 0 ∧
      f32Units 0x40400000#32 = f32Units 0x3F800000#32 + f32Units 0x40000000#32 ∧
      f32Units 0x3F800000#32 + f32Units 0xC0000000#32 < 0 := by decide +kernel

/-- FaddSmallSumsExact: the largest subnormal plus the smallest. -/
theorem test_witness_fadd_small : isFinite 0x007FFFFF#32 = true ∧ isFinite 0x00000001#32 = true ∧
    (f32Units 0x007FFFFF#32 + f32Units 0x00000001#32).natAbs < 2 ^ 24 := by decide +kernel

/-- FaddOverflowsExactly: F18 stands exactly at the bound, F20 below it. -/
theorem test_witness_fadd_overflow :
    (f32Units 0x7F7FFFFF#32 + f32Units 0x73000000#32).natAbs = (2 ^ 25 - 1) * 2 ^ 252 ∧
      (f32Units 0x7F7FFFFF#32 + f32Units 0x72FFFFFF#32).natAbs < (2 ^ 25 - 1) * 2 ^ 252 := by decide +kernel

/-- FaddRoundsToNearestEven: F27 is a tie between two data, and F5 is no tie. -/
theorem test_witness_fadd_tie :
    isFinite (fadd32 0x4B800000#32 0x3F800000#32) = true ∧ isFinite 0x4B800001#32 = true ∧
      (f32Units 0x4B800001#32 - (f32Units 0x4B800000#32 + f32Units 0x3F800000#32)).natAbs =
        (f32Units (fadd32 0x4B800000#32 0x3F800000#32) - (f32Units 0x4B800000#32 + f32Units 0x3F800000#32)).natAbs ∧
      f32Units 0x4B800001#32 ≠ f32Units (fadd32 0x4B800000#32 0x3F800000#32) := by decide +kernel

end Sys2Proof.Tests
end

section
/-!
PROOFS. What a step that answers a next state can have done: the frame of every command (R23, R34), an inversion of each host
operation, and from them that no step changes the platform's parameters (R9).
-/

namespace Sys2Proof.Machine

/-! ### The frame of a command -/

theorem sameFrame_refl (s : State) : sameFrame s s := ⟨rfl, rfl, rfl, rfl, rfl, rfl, rfl⟩

theorem sameFrame_trans {s t u : State} (hst : sameFrame s t) (htu : sameFrame t u) : sameFrame s u := by
  obtain ⟨hcmd, hdst, ha, hb, hplat, hpend, hrep⟩ := hst
  obtain ⟨hcmd', hdst', ha', hb', hplat', hpend', hrep'⟩ := htu
  exact ⟨hcmd'.trans hcmd, hdst'.trans hdst, ha'.trans ha, hb'.trans hb, hplat'.trans hplat, hpend'.trans hpend,
    hrep'.trans hrep⟩

theorem sameFrame_beginCommand (s : State) : sameFrame s s.beginCommand := by simp [sameFrame]

theorem sameFrame_completeCommand (s : State) : sameFrame s s.completeCommand := by simp [sameFrame]

theorem sameFrame_raiseError (s : State) (e : HwError) : sameFrame s (s.raiseError e) := by simp [sameFrame]

theorem sameFrame_afterKernel (W d pa pb : Nat) (s : State) : sameFrame s (afterKernel W d pa pb s) := by
  simp [sameFrame]

/-- An invocation that completes passed its checks, and its result is `afterKernel`. -/
theorem kernel_eq_ok {W d pa pb : Nat} {s t : State} (h : kernel W d pa pb s = .ok t) :
    pointerFault s.platform (4 * W) (4 * W) d pa pb = none ∧ t = afterKernel W d pa pb s := by
  rw [kernel_eq] at h
  split at h
  · cases h
  · next hnone => exact ⟨hnone, (Except.ok.inj h).symm⟩

theorem sameFrame_of_runChunks_eq_ok {W d pa pb : Nat} {offsets : List Nat} {s t : State}
    (h : runChunks W d pa pb offsets s = .ok t) : sameFrame s t := by
  induction offsets generalizing s with
  | nil =>
    cases h
    exact sameFrame_refl _
  | cons o rest ih =>
    rw [runChunks] at h
    split at h
    · cases h
    · next hk =>
      obtain ⟨-, rfl⟩ := kernel_eq_ok hk
      exact sameFrame_trans (sameFrame_afterKernel ..) (ih h)

theorem sameFrame_of_vadd_eq_ok {W : Nat} {s t : State} (h : vadd W s = .ok t) : sameFrame s t := by
  rcases vadd_cases W s with ⟨-, e⟩ | ⟨-, e | e | e | e⟩ <;> rw [e] at h <;> cases h
  exact sameFrame_trans (sameFrame_beginCommand s)
    (sameFrame_trans (sameFrame_afterKernel ..) (sameFrame_completeCommand _))

/-- A DISPATCH that completes found its pointers written, passed the whole-array checks and ran every chunk. -/
theorem dispatchWidth_eq_ok {W : Nat} {s t : State} (h : dispatchWidth W s = .ok t) :
    s.block.pointersWritten ∧ pointerFault s.platform (4 * W) 64 s.dstAddr s.aAddr s.bAddr = none ∧
      ∃ u, runChunks W s.dstAddr s.aAddr s.bAddr (chunkOffsets W) s = .ok u ∧ t = u.completeCommand := by
  by_cases hw : s.block.pointersWritten
  · rw [dispatchWidth_of_written hw] at h
    split at h
    · cases h
    · next hnone =>
      split at h
      · cases h
      · next u hu => exact ⟨hw, hnone, u, hu, (Except.ok.inj h).symm⟩
  · rw [dispatchWidth_of_not_written hw] at h
    cases h

theorem sameFrame_of_dispatchWidth_eq_ok {W : Nat} {s t : State} (h : dispatchWidth W s = .ok t) :
    sameFrame s t := by
  obtain ⟨-, -, u, hu, rfl⟩ := dispatchWidth_eq_ok h
  exact sameFrame_trans (sameFrame_of_runChunks_eq_ok hu) (sameFrame_completeCommand u)

theorem outcomeOf_eq_next_iff {r : Except Fault State} {t : State} : outcomeOf r = .next t ↔ r = .ok t := by
  cases r <;> simp [outcomeOf]

theorem sameFrame_of_execDispatch_eq_next {mode : Mode} {s t : State} (h : execDispatch mode s = .next t) :
    sameFrame s t := by
  rw [execDispatch] at h
  refine sameFrame_trans (sameFrame_beginCommand s) ?_
  split at h
  · cases h
    exact sameFrame_raiseError _ .errMode
  · exact sameFrame_of_dispatchWidth_eq_ok (outcomeOf_eq_next_iff.1 h)

/-- No command changes CMD, the pointer registers, the platform or the host's side (R23, R34). -/
theorem sameFrame_of_exec_eq_next {i : Instr} {s t : State} (h : exec i s = .next t) : sameFrame s t := by
  cases i with
  | vadd4 => exact sameFrame_of_vadd_eq_ok (outcomeOf_eq_next_iff.1 h)
  | vadd8 => exact sameFrame_of_vadd_eq_ok (outcomeOf_eq_next_iff.1 h)
  | vadd16 => exact sameFrame_of_vadd_eq_ok (outcomeOf_eq_next_iff.1 h)
  | dispatch mode => exact sameFrame_of_execDispatch_eq_next h

/-- A CMD write keeps the frame of the state that accepted the word, reserved words included (R115, R126). -/
theorem sameFrame_of_issueCommand_eq_next {w : Bits32} {s t : State} (h : issueCommand w s = .next t) :
    sameFrame (s.acceptCommand w) t := by
  rw [issueCommand] at h
  split at h
  · cases h
    exact sameFrame_raiseError _ .errCmd
  · exact sameFrame_of_exec_eq_next h

/-! ### What a host operation that answers a next state has done -/

theorem hostRegRead_eq_next {offset width : Nat} {s t : State} (h : hostRegRead offset width s = .next t) :
    ∃ r v, selectReg offset width = some r ∧ s.block.readReg r = .ok v ∧ t = s.reply (.reg offset width v) := by
  rw [hostRegRead] at h
  split at h
  · cases h
  · next r hr =>
    split at h
    · cases h
    · next v hv => exact ⟨r, v, hr, hv, (Host.Outcome.next.inj h).symm⟩

/-- A register write issues a command (R115), is ignored (R118, R120), or stores a pointer (R121). -/
theorem hostRegWrite_eq_next {offset width : Nat} {v : Bits64} {s t : State}
    (h : hostRegWrite offset width v s = .next t) :
    (selectReg offset width = some .cmd ∧ issueCommand (v.setWidth 32) s = .next t) ∨
    ((selectReg offset width = some .status ∨ selectReg offset width = some .kcount) ∧ t = s) ∨
    (selectReg offset width = some .dstPtr ∧ t = s.writePtr .dst v) ∨
    (selectReg offset width = some .aPtr ∧ t = s.writePtr .a v) ∨
    (selectReg offset width = some .bPtr ∧ t = s.writePtr .b v) := by
  rw [hostRegWrite] at h
  split at h
  · cases h
  · next hr => exact .inl ⟨hr, h⟩
  · next hr => cases h; exact .inr (.inl ⟨.inl hr, rfl⟩)
  · next hr => cases h; exact .inr (.inl ⟨.inr hr, rfl⟩)
  · next hr => cases h; exact .inr (.inr (.inl ⟨hr, rfl⟩))
  · next hr => cases h; exact .inr (.inr (.inr (.inl ⟨hr, rfl⟩)))
  · next hr => cases h; exact .inr (.inr (.inr (.inr ⟨hr, rfl⟩)))

theorem hostMemRead_eq_next {a n : Nat} {s t : State} (h : hostMemRead a n s = .next t) :
    hostMemFault s.platform a n = none ∧ t = s.reply (.mem a (s.mem.readBytes a n)) := by
  rw [hostMemRead] at h
  split at h
  · cases h
  · next hnone => exact ⟨hnone, (Host.Outcome.next.inj h).symm⟩

theorem hostMemWrite_eq_next {a : Nat} {bytes : List Byte} {s t : State} (h : hostMemWrite a bytes s = .next t) :
    hostMemFault s.platform a bytes.length = none ∧ t = { s with mem := s.mem.writeBytes a bytes } := by
  rw [hostMemWrite] at h
  split at h
  · cases h
  · next hnone => exact ⟨hnone, (Host.Outcome.next.inj h).symm⟩

/-! ### The platform -/

theorem issueCommand_platform {w : Bits32} {s t : State} (h : issueCommand w s = .next t) :
    t.platform = s.platform := by
  obtain ⟨-, -, -, -, hplat, -, -⟩ := sameFrame_of_issueCommand_eq_next h
  rw [hplat, acceptCommand_platform]

theorem hostRegWrite_platform {offset width : Nat} {v : Bits64} {s t : State}
    (h : hostRegWrite offset width v s = .next t) : t.platform = s.platform := by
  rcases hostRegWrite_eq_next h with ⟨-, hcmd⟩ | ⟨-, rfl⟩ | ⟨-, rfl⟩ | ⟨-, rfl⟩ | ⟨-, rfl⟩
  · exact issueCommand_platform hcmd
  · rfl
  · exact writePtr_platform s .dst v
  · exact writePtr_platform s .a v
  · exact writePtr_platform s .b v

theorem performHostOp_platform {op : HostOp} {s t : State} (h : performHostOp op s = .next t) :
    t.platform = s.platform := by
  cases op with
  | regRead offset width =>
    obtain ⟨r, v, -, -, rfl⟩ := hostRegRead_eq_next h
    exact reply_platform s _
  | regWrite offset width v => exact hostRegWrite_platform h
  | memRead a n =>
    obtain ⟨-, rfl⟩ := hostMemRead_eq_next h
    exact reply_platform s _
  | memWrite a bytes =>
    obtain ⟨-, rfl⟩ := hostMemWrite_eq_next h
    rfl
  | reset =>
    cases h
    exact resetBlock_platform s

/-- A step with a next state either had no operation left and kept the state, or performed the next operation. -/
theorem step_eq_next {s t : State} (h : step s = .next t) :
    (s.pending = [] ∧ t = s) ∨
    ∃ op rest, s.pending = op :: rest ∧ performHostOp op { s with pending := rest } = .next t := by
  rw [step] at h
  split at h
  · next hnil => exact .inl ⟨hnil, (Host.Outcome.next.inj h).symm⟩
  · next op rest hcons => exact .inr ⟨op, rest, hcons, h⟩

/-- Settles O45: an idle step keeps the whole state, and each host operation keeps the platform, a CMD write by the frame of
the command it issues. -/
theorem stepKeepsPlatform : Obligations.StepKeepsPlatform := by
  intro s t h
  rcases step_eq_next h with ⟨-, rfl⟩ | ⟨op, rest, -, hop⟩
  · rfl
  · rw [performHostOp_platform hop]

end Sys2Proof.Machine
end

section
/-!
PROOFS. What a command that answers a next state has done: the exact next state of a VADD (R95) and of a DISPATCH (R101), and
from them the frame of memory (R55), the report (R123) and the fault on an unwritten pointer (R33).
-/

namespace Sys2Proof.Machine

/-! ### The next state of a VADD -/

/-- A VADD that completes met its contract, and its result is one invocation of the kernel. -/
theorem vadd_eq_ok {W : Nat} {s t : State} (h : vadd W s = .ok t) :
    s.contract (4 * W) (4 * W) ∧ t = (afterKernel W s.dstAddr s.aAddr s.bAddr s.beginCommand).completeCommand := by
  rcases vadd_cases W s with ⟨hc, e⟩ | ⟨-, e | e | e | e⟩ <;> rw [e] at h <;> cases h
  exact ⟨hc, rfl⟩

theorem vadd_mem {W : Nat} {s t : State} (h : vadd W s = .ok t) :
    t.mem = s.mem.writeElems s.dstAddr (laneSums W s.mem s.aAddr s.bAddr) := by
  obtain ⟨-, rfl⟩ := vadd_eq_ok h
  rfl

theorem reportsSuccess_of_vadd_eq_ok {W : Nat} {s t : State} (h : vadd W s = .ok t) : reportsSuccess t 1 := by
  obtain ⟨-, rfl⟩ := vadd_eq_ok h
  simp [reportsSuccess]

/-! ### The next state of a DISPATCH -/

theorem memAfterChunks_append (W d pa pb : Nat) (xs ys : List Nat) (m : Memory) :
    memAfterChunks W d pa pb (xs ++ ys) m = memAfterChunks W d pa pb ys (memAfterChunks W d pa pb xs m) := by
  induction xs generalizing m with
  | nil => rfl
  | cons x xs ih => exact ih _

/-- The first n chunks of W elements leave the memory of one run of W * n elements (R105). -/
theorem memAfterChunks_range {W n d pa pb : Nat} (m : Memory) (hn : W * n ≤ 16) (ha : sameOrDisjoint 64 d pa)
    (hb : sameOrDisjoint 64 d pb) :
    memAfterChunks W d pa pb ((List.range n).map (W * ·)) m = m.writeElems d (laneSums (W * n) m pa pb) := by
  induction n with
  | zero => rfl
  | succ n ih =>
    rw [Nat.mul_succ] at hn ⊢
    rw [List.range_succ, List.map_append, memAfterChunks_append, ih (by omega)]
    exact writeElems_chunk m hn ha hb

/-- The chunk loop over a whole array leaves the memory of one run of 16 elements (R104, R106). -/
theorem memAfterChunks_chunkOffsets {W d pa pb : Nat} (m : Memory) (hW : W ∣ 16) (ha : sameOrDisjoint 64 d pa)
    (hb : sameOrDisjoint 64 d pb) :
    memAfterChunks W d pa pb (chunkOffsets W) m = m.writeElems d (laneSums 16 m pa pb) := by
  have hlen : W * (16 / W) = 16 := Nat.mul_div_cancel' hW
  have h := memAfterChunks_range (n := 16 / W) m hlen.le ha hb
  rwa [hlen] at h

/-- A chunk loop that completes passed the checks of every invocation. -/
theorem pointerFault_of_runChunks_eq_ok {W d pa pb : Nat} {offsets : List Nat} {s t : State}
    (h : runChunks W d pa pb offsets s = .ok t) :
    ∀ o ∈ offsets, pointerFault s.platform (4 * W) (4 * W) (d + 4 * o) (pa + 4 * o) (pb + 4 * o) = none := by
  induction offsets generalizing s with
  | nil => simp
  | cons o rest ih =>
    rw [runChunks] at h
    split at h
    · cases h
    · next hk =>
      obtain ⟨hnone, rfl⟩ := kernel_eq_ok hk
      have hrest := ih h
      exact List.forall_mem_cons.2 ⟨hnone, hrest⟩

/-- The state after the chunk loop of a DISPATCH of width W: all 16 sums written, one invocation counted per chunk. -/
def afterArray (W : Nat) (s : State) : State :=
  { s with
    mem := s.mem.writeElems s.dstAddr (laneSums 16 s.mem s.aAddr s.bAddr)
    block := { s.block with kcount := s.block.kcount + BitVec.ofNat 32 (16 / W) } }

/-- A DISPATCH that completes met its contract, and its result holds the whole array's sums. -/
theorem dispatchWidth_eq_ok_afterArray {W : Nat} {s t : State} (hW : W ∣ 16) (h : dispatchWidth W s = .ok t) :
    s.contract (4 * W) 64 ∧ t = (afterArray W s).completeCommand := by
  obtain ⟨hw, hnone, u, hu, rfl⟩ := dispatchWidth_eq_ok h
  obtain ⟨haligned, hadmitted, ha, hb⟩ := (pointerFault_eq_none_iff ..).1 hnone
  refine ⟨⟨hw, haligned, hadmitted, ha, hb⟩, ?_⟩
  rw [runChunks_ok _ _ _ _ _ _ (pointerFault_of_runChunks_eq_ok hu), memAfterChunks_chunkOffsets s.mem hW ha hb,
    chunkOffsets, List.length_map, List.length_range] at hu
  rw [← Except.ok.inj hu, afterArray]

/-- The widths that modes select divide the array. -/
theorem dvd_of_selectWidth_eq_some {mode : Mode} {W : Nat} (h : selectWidth mode = some W) : W ∣ 16 := by
  cases mode <;> cases h <;> decide

theorem eq_unsupported_of_selectWidth_eq_none {mode : Mode} (h : selectWidth mode = none) : mode = .unsupported := by
  cases mode with
  | unsupported => rfl
  | _ => cases h

/-- A DISPATCH that completes raised ERR_MODE, or met its contract and wrote the whole array (R101, R102). -/
theorem execDispatch_eq_next {mode : Mode} {s t : State} (h : execDispatch mode s = .next t) :
    (mode = .unsupported ∧ t = s.beginCommand.raiseError .errMode) ∨
    ∃ W, selectWidth mode = some W ∧ s.contract (4 * W) 64 ∧ t = (afterArray W s.beginCommand).completeCommand := by
  rw [execDispatch] at h
  split at h
  · next hsel =>
    cases h
    exact .inl ⟨eq_unsupported_of_selectWidth_eq_none hsel, rfl⟩
  · next W hsel =>
    exact .inr ⟨W, hsel,
      dispatchWidth_eq_ok_afterArray (dvd_of_selectWidth_eq_some hsel) (outcomeOf_eq_next_iff.1 h)⟩

/-! ### The frame of memory (R55) -/

theorem keepsOutside_refl (m : Memory) (a n : Nat) : keepsOutside m m a n := fun _ _ => rfl

theorem keepsOutside_writeElems (m : Memory) (a : Nat) (vs : List Bits32) :
    keepsOutside m (m.writeElems a vs) a (4 * vs.length) := fun x hx =>
  readByte_writeElems_of_outside vs m a x hx

theorem keepsOutside_writeElems_laneSums (W : Nat) (m : Memory) (d pa pb : Nat) :
    keepsOutside m (m.writeElems d (laneSums W m pa pb)) d (4 * W) := by
  simpa using keepsOutside_writeElems m d (laneSums W m pa pb)

theorem frame_of_vadd_eq_ok {W : Nat} {s t : State} (h : vadd W s = .ok t) :
    sameFrame s t ∧ keepsOutside s.mem t.mem s.dstAddr (4 * W) := by
  refine ⟨sameFrame_of_vadd_eq_ok h, ?_⟩
  rw [vadd_mem h]
  exact keepsOutside_writeElems_laneSums _ _ _ _ _

/-- Settles O8: the result of a VADD is one write of W sums at DST_PTR. -/
theorem vaddFrame : Obligations.VaddFrame := by
  unfold Obligations.VaddFrame
  simp only [List.forall_mem_cons, List.not_mem_nil, false_imp_iff, implies_true, and_true]
  exact ⟨fun s t h => frame_of_vadd_eq_ok (W := 4) (outcomeOf_eq_next_iff.1 h),
    fun s t h => frame_of_vadd_eq_ok (W := 8) (outcomeOf_eq_next_iff.1 h),
    fun s t h => frame_of_vadd_eq_ok (W := 16) (outcomeOf_eq_next_iff.1 h)⟩

/-- Settles O15: the result of a DISPATCH is ERR_MODE with memory untouched, or one write of 16 sums at DST_PTR. -/
theorem dispatchFrame : Obligations.DispatchFrame := by
  intro mode s t h
  refine ⟨sameFrame_of_execDispatch_eq_next h, ?_⟩
  rcases execDispatch_eq_next h with ⟨-, rfl⟩ | ⟨W, hsel, -, rfl⟩
  · rw [raiseError_mem, beginCommand_mem]
    exact ⟨keepsOutside_refl _ _ _, fun _ => rfl⟩
  · refine ⟨keepsOutside_writeElems_laneSums 16 _ _ _ _, ?_⟩
    rintro rfl
    cases hsel

/-! ### Unwritten pointers (R33) -/

theorem execDispatch_of_not_written {mode : Mode} {s : State} {W : Nat} (hsel : selectWidth mode = some W)
    (h : ¬ s.block.pointersWritten) : execDispatch mode s = .fault .unwrittenPtr := by
  rw [execDispatch, hsel]
  exact congrArg outcomeOf (dispatchWidth_of_not_written (s := s.beginCommand) h)

/-- Settles O20: reading the pointers comes before every other check, in the VADDs and in the supported modes. -/
theorem unwrittenPointerFaults : Obligations.UnwrittenPointerFaults := by
  unfold Obligations.UnwrittenPointerFaults
  simp only [List.forall_mem_cons, List.not_mem_nil, false_imp_iff, implies_true, and_true]
  exact ⟨fun s h => congrArg outcomeOf (vadd_of_not_written h), fun s h => congrArg outcomeOf (vadd_of_not_written h),
    fun s h => congrArg outcomeOf (vadd_of_not_written h), fun s h => execDispatch_of_not_written (mode := .narrow) rfl h,
    fun s h => execDispatch_of_not_written (mode := .medium) rfl h,
    fun s h => execDispatch_of_not_written (mode := .wide) rfl h⟩

/-! ### The report of a command (R26, R27, R29, R123) -/

theorem report_of_reportsSuccess {t : State} {k : Nat} (h : reportsSuccess t k) :
    t.block.done = true ∧ (t.block.errMode, t.block.errCmd, t.block.kcount) = (false, false, BitVec.ofNat 32 k) := by
  obtain ⟨hdone, hmode, hcmd, hk⟩ := h
  exact ⟨hdone, by rw [hmode, hcmd, hk]⟩

theorem reportsSuccess_afterArray (W : Nat) (s : State) :
    reportsSuccess (afterArray W s.beginCommand).completeCommand (16 / W) := by
  simp [reportsSuccess, afterArray]

/-- A command that completes leaves DONE set and the report that `reportOf` gives its word. -/
theorem report_of_exec_eq_next {w : Bits32} {i : Instr} {s t : State} (hdec : decode w = .ok i)
    (h : exec i s = .next t) :
    t.block.done = true ∧ (t.block.errMode, t.block.errCmd, t.block.kcount) = reportOf w := by
  rw [reportOf, hdec]
  cases i with
  | vadd4 => exact report_of_reportsSuccess (reportsSuccess_of_vadd_eq_ok (outcomeOf_eq_next_iff.1 h))
  | vadd8 => exact report_of_reportsSuccess (reportsSuccess_of_vadd_eq_ok (outcomeOf_eq_next_iff.1 h))
  | vadd16 => exact report_of_reportsSuccess (reportsSuccess_of_vadd_eq_ok (outcomeOf_eq_next_iff.1 h))
  | dispatch mode =>
    rcases execDispatch_eq_next h with ⟨rfl, rfl⟩ | ⟨W, hsel, -, rfl⟩
    · simp
    · have hrep := report_of_reportsSuccess (reportsSuccess_afterArray W s)
      cases mode <;> cases hsel <;> exact hrep

/-- A CMD write that completes leaves DONE set and the report of the word written, reserved words included (R115). -/
theorem report_of_issueCommand_eq_next {w : Bits32} {s t : State} (h : issueCommand w s = .next t) :
    t.block.done = true ∧ (t.block.errMode, t.block.errCmd, t.block.kcount) = reportOf w := by
  rw [issueCommand] at h
  split at h
  · next hdec =>
    cases h
    rw [reportOf, hdec]
    simp
  · next hdec => exact report_of_exec_eq_next hdec h

end Sys2Proof.Machine
end

section
/-!
PROOFS. Reset (R43), DONE (R25), and the invariant of the machine: memory through one rule (every step's effect on memory is one
run of bytes inside the address space), the registers through the report of a CMD write.
-/

namespace Sys2Proof.Machine

/-! ### Reset and DONE -/

theorem step_of_pending_eq_cons {s : State} {op : HostOp} {rest : List HostOp} (h : s.pending = op :: rest) :
    step s = performHostOp op { s with pending := rest } := by
  rw [step, h]

/-- Settles O39: the values are those of `Block.reset`, which the reset input restores. -/
theorem resetValues : Obligations.ResetValues := by
  have hreset : Block.reset.cmd = 0 ∧ Block.reset.statusWord = 0 ∧ Block.reset.kcount = 0 ∧
      Block.reset.dstPtr.written = false ∧ Block.reset.aPtr.written = false ∧ Block.reset.bPtr.written = false :=
    ⟨rfl, rfl, rfl, rfl, rfl, rfl⟩
  exact ⟨hreset, fun s rest h => ⟨_, step_of_pending_eq_cons h, hreset⟩⟩

/-- CMD is reached by a 32-bit access at offset 0 alone (R112). -/
theorem selectReg_eq_cmd {offset width : Nat} (h : selectReg offset width = some .cmd) : offset = 0x00 ∧ width = 32 := by
  unfold selectReg at h
  split_ifs at h <;> simp_all

/-- No operation but reset and a CMD write changes DONE (R25). -/
theorem performHostOp_done {op : HostOp} {s t : State} (h : performHostOp op s = .next t) (hreset : op ≠ .reset)
    (hcmd : ∀ v, op ≠ .regWrite 0x00 32 v) : t.block.done = s.block.done := by
  cases op with
  | regRead offset width =>
    obtain ⟨r, v, -, -, rfl⟩ := hostRegRead_eq_next h
    rfl
  | regWrite offset width v =>
    rcases hostRegWrite_eq_next h with ⟨hsel, -⟩ | ⟨-, rfl⟩ | ⟨-, rfl⟩ | ⟨-, rfl⟩ | ⟨-, rfl⟩
    · obtain ⟨rfl, rfl⟩ := selectReg_eq_cmd hsel
      exact absurd rfl (hcmd v)
    · rfl
    · exact writePtr_done s .dst v
    · exact writePtr_done s .a v
    · exact writePtr_done s .b v
  | memRead a n =>
    obtain ⟨-, rfl⟩ := hostMemRead_eq_next h
    rfl
  | memWrite a bytes =>
    obtain ⟨-, rfl⟩ := hostMemWrite_eq_next h
    rfl
  | reset => exact absurd rfl hreset

/-- Settles O44: reset clears DONE, a CMD write that completes sets it, and no other operation touches it. -/
theorem doneFromFirstCommandUntilReset : Obligations.DoneFromFirstCommandUntilReset := by
  intro s t h
  refine ⟨fun rest hp => ?_, fun v rest hp => ?_, fun hreset hcmd => ?_⟩
  · rw [step_of_pending_eq_cons hp] at h
    cases h
    rfl
  · rw [step_of_pending_eq_cons hp] at h
    exact (report_of_issueCommand_eq_next h).1
  · rcases step_eq_next h with ⟨-, rfl⟩ | ⟨op, rest, hp, hop⟩
    · rfl
    · have hreset' : op ≠ .reset := fun e => hreset rest (e ▸ hp)
      have hcmd' : ∀ v, op ≠ .regWrite 0x00 32 v := fun v e => hcmd v rest (e ▸ hp)
      exact performHostOp_done (s := { s with pending := rest }) hop hreset' hcmd'

/-! ### Memory: every effect is one run of bytes inside the address space -/

/-- `m'` is `m` after one run of bytes stored below `bound`; the run may be empty. -/
def storesBelow (bound : Nat) (m m' : Memory) : Prop :=
  ∃ a bytes, a + bytes.length ≤ bound ∧ m' = m.writeBytes a bytes

theorem storesBelow_refl (bound : Nat) (m : Memory) : storesBelow bound m m := ⟨0, [], Nat.zero_le _, rfl⟩

theorem wf_of_storesBelow {bound : Nat} {m m' : Memory} (h : storesBelow bound m m') (hm : m.wf = true) :
    m'.wf = true := by
  obtain ⟨a, bytes, -, rfl⟩ := h
  exact wf_writeBytes bytes m a hm

theorem below_of_storesBelow {bound : Nat} {m m' : Memory} (h : storesBelow bound m m') (hm : m.below bound = true) :
    m'.below bound = true := by
  obtain ⟨a, bytes, ha, rfl⟩ := h
  exact below_writeBytes bytes m a bound ha hm

theorem writeElems_eq_writeBytes (vs : List Bits32) (m : Memory) (p : Nat) :
    m.writeElems p vs = m.writeBytes p (vs.flatMap elemBytes) := by
  induction vs generalizing m p with
  | nil => rfl
  | cons v vs ih =>
    rw [List.flatMap_cons, writeBytes_append, length_elemBytes]
    exact ih _ _

theorem storesBelow_writeElems {bound : Nat} (m : Memory) {p : Nat} {vs : List Bits32} (h : p + 4 * vs.length ≤ bound) :
    storesBelow bound m (m.writeElems p vs) :=
  ⟨p, vs.flatMap elemBytes, by simpa [List.length_flatMap, Nat.mul_comm] using h, writeElems_eq_writeBytes vs m p⟩

/-- A command stores its sums where its contract admits its destination, or stores nothing. -/
theorem storesBelow_of_vadd_eq_ok {W : Nat} {s t : State} (h : vadd W s = .ok t) :
    storesBelow (2 ^ s.platform.addrW) s.mem t.mem := by
  obtain ⟨⟨-, -, ⟨-, -, hspace, -⟩, -⟩, -⟩ := vadd_eq_ok h
  rw [vadd_mem h]
  exact storesBelow_writeElems _ (by simpa using hspace)

theorem storesBelow_of_exec_eq_next {i : Instr} {s t : State} (h : exec i s = .next t) :
    storesBelow (2 ^ s.platform.addrW) s.mem t.mem := by
  cases i with
  | vadd4 => exact storesBelow_of_vadd_eq_ok (outcomeOf_eq_next_iff.1 h)
  | vadd8 => exact storesBelow_of_vadd_eq_ok (outcomeOf_eq_next_iff.1 h)
  | vadd16 => exact storesBelow_of_vadd_eq_ok (outcomeOf_eq_next_iff.1 h)
  | dispatch mode =>
    rcases execDispatch_eq_next h with ⟨-, rfl⟩ | ⟨W, -, ⟨-, -, ⟨-, -, hspace, -⟩, -⟩, rfl⟩
    · rw [raiseError_mem]
      exact storesBelow_refl ..
    · exact storesBelow_writeElems s.mem (by rwa [length_laneSums])

theorem storesBelow_of_issueCommand_eq_next {w : Bits32} {s t : State} (h : issueCommand w s = .next t) :
    storesBelow (2 ^ s.platform.addrW) s.mem t.mem := by
  rw [issueCommand] at h
  split at h
  · cases h
    rw [raiseError_mem]
    exact storesBelow_refl ..
  · have hstores := storesBelow_of_exec_eq_next h
    rwa [acceptCommand_mem, acceptCommand_platform] at hstores

theorem add_le_of_hostMemFault_eq_none {p : Platform} {a n : Nat} (h : hostMemFault p a n = none) :
    a + n ≤ 2 ^ p.addrW := by
  by_contra hspace
  simp [hostMemFault, inSpace, hspace] at h

/-- A host operation stores one run of bytes inside the address space, or leaves memory as it is (R45). -/
theorem storesBelow_of_performHostOp_eq_next {op : HostOp} {s t : State} (h : performHostOp op s = .next t) :
    storesBelow (2 ^ s.platform.addrW) s.mem t.mem := by
  cases op with
  | regRead offset width =>
    obtain ⟨r, v, -, -, rfl⟩ := hostRegRead_eq_next h
    exact storesBelow_refl ..
  | regWrite offset width v =>
    rcases hostRegWrite_eq_next h with ⟨-, hcmd⟩ | ⟨-, rfl⟩ | ⟨-, rfl⟩ | ⟨-, rfl⟩ | ⟨-, rfl⟩
    · exact storesBelow_of_issueCommand_eq_next hcmd
    all_goals exact storesBelow_refl ..
  | memRead a n =>
    obtain ⟨-, rfl⟩ := hostMemRead_eq_next h
    exact storesBelow_refl ..
  | memWrite a bytes =>
    obtain ⟨hnone, rfl⟩ := hostMemWrite_eq_next h
    exact ⟨a, bytes, add_le_of_hostMemFault_eq_none hnone, rfl⟩
  | reset =>
    cases h
    exact storesBelow_refl ..

/-! ### CMD, STATUS and KCOUNT stay in agreement -/

theorem consistent_reset : Block.reset.consistent := by simp [Block.consistent, Block.reset]

theorem consistent_writePtr_iff (s : State) (r : PtrName) (v : Bits64) :
    (s.writePtr r v).block.consistent ↔ s.block.consistent := by
  simp [Block.consistent]

/-- A CMD write leaves the registers in agreement, whatever they held before (R110). -/
theorem consistent_of_issueCommand_eq_next {w : Bits32} {s t : State} (h : issueCommand w s = .next t) :
    t.block.consistent := by
  obtain ⟨hdone, hreport⟩ := report_of_issueCommand_eq_next h
  obtain ⟨hcmd, -⟩ := sameFrame_of_issueCommand_eq_next h
  rw [acceptCommand_cmd] at hcmd
  rw [Block.consistent, if_pos hdone, hreport, hcmd]

theorem consistent_of_performHostOp_eq_next {op : HostOp} {s t : State} (hs : s.block.consistent)
    (h : performHostOp op s = .next t) : t.block.consistent := by
  cases op with
  | regRead offset width =>
    obtain ⟨r, v, -, -, rfl⟩ := hostRegRead_eq_next h
    exact hs
  | regWrite offset width v =>
    rcases hostRegWrite_eq_next h with ⟨-, hcmd⟩ | ⟨-, rfl⟩ | ⟨-, rfl⟩ | ⟨-, rfl⟩ | ⟨-, rfl⟩
    · exact consistent_of_issueCommand_eq_next hcmd
    · exact hs
    all_goals exact (consistent_writePtr_iff ..).2 hs
  | memRead a n =>
    obtain ⟨-, rfl⟩ := hostMemRead_eq_next h
    exact hs
  | memWrite a bytes =>
    obtain ⟨-, rfl⟩ := hostMemWrite_eq_next h
    exact hs
  | reset =>
    cases h
    exact consistent_reset

/-! ### The invariant -/

/-- Settles O41: memory lists nothing, the registers hold `Block.reset`, and the platform of log entry 4 is legal. -/
theorem invHoldsAtReset : Obligations.InvHoldsAtReset :=
  ⟨rfl, rfl, consistent_reset, by decide, by decide, by decide⟩

theorem inv_of_performHostOp_eq_next {op : HostOp} {s t : State} (hs : s.Inv) (h : performHostOp op s = .next t) :
    t.Inv := by
  obtain ⟨hwf, hbelow, hcons, hlegal⟩ := hs
  have hstores := storesBelow_of_performHostOp_eq_next h
  rw [State.Inv, performHostOp_platform h]
  exact ⟨wf_of_storesBelow hstores hwf, below_of_storesBelow hstores hbelow,
    consistent_of_performHostOp_eq_next hcons h, hlegal⟩

/-- Settles O42: an idle step keeps the state, and a host operation keeps each part of the invariant; the host's queue is no
part of it. -/
theorem stepKeepsInv : Obligations.StepKeepsInv := by
  intro s t hs h
  rcases step_eq_next h with ⟨-, rfl⟩ | ⟨op, rest, -, hop⟩
  · exact hs
  · exact inv_of_performHostOp_eq_next (s := { s with pending := rest }) hs hop

end Sys2Proof.Machine
end

section
/-!
PROOFS. Memory (spec/20_memory.md): admission byte by byte and the host's bytes, the faults of a command as the faults of its
checks (R51 to R54, R129), and what may write memory, and where (R46, R47, R58).
-/

namespace Sys2Proof.Machine

/-! ### Admission, and the host's bytes -/

/-- A test that holds on a range of bytes holds on every range inside it. -/
theorem allBytes_of_subrange {test : Nat → Bool} {a n b k : Nat} (hab : a ≤ b) (hle : b + k ≤ a + n)
    (h : allBytes test a n = true) : allBytes test b k = true := by
  rw [allBytes_iff] at h ⊢
  exact fun x hbx hxk => h x (hab.trans hbx) (hxk.trans_le hle)

/-- Settles O38: admission is a test of each byte. -/
theorem admissionIsByteWise : Obligations.AdmissionIsByteWise := fun _ _ _ _ _ hab hle =>
  ⟨allBytes_of_subrange hab hle, allBytes_of_subrange hab hle⟩

/-- Four bytes stored from an address on read back as one little-endian element there (R49). -/
theorem readElem_writeBytes_four (m : Memory) (a : Nat) (b0 b1 b2 b3 : Byte) :
    (m.writeBytes a [b0, b1, b2, b3]).readElem a = b3 ++ b2 ++ b1 ++ b0 := by
  have hbyte := readByte_writeBytes_inside [b0, b1, b2, b3] m a
  have h0 := hbyte 0 (by simp)
  have h1 := hbyte 1 (by simp)
  have h2 := hbyte 2 (by simp)
  have h3 := hbyte 3 (by simp)
  rw [Nat.add_zero] at h0
  rw [Memory.readElem, h0, h1, h2, h3]
  rfl

/-- The host may access memory below 2^ADDR_W and off the register window (log entry 9). -/
theorem hostMemFault_eq_none {p : Platform} {a n : Nat} (hspace : a + n ≤ 2 ^ p.addrW)
    (hoff : a + n ≤ p.blockBase.toNat ∨ p.blockBase.toNat + 0x40 ≤ a) : hostMemFault p a n = none := by
  have hin : inSpace p a n = true := by simpa [inSpace] using hspace
  have htouch : touchesWindow p a n = false := by
    simp only [touchesWindow, Config.windowBytes, Bool.and_eq_false_iff, decide_eq_false_iff_not]
    omega
  simp [hostMemFault, hin, htouch]

theorem hostMemWrite_of_hostMemFault_eq_none {a : Nat} {bytes : List Byte} {s : State}
    (h : hostMemFault s.platform a bytes.length = none) :
    hostMemWrite a bytes s = .next { s with mem := s.mem.writeBytes a bytes } := by
  rw [hostMemWrite, h]

/-- Settles O35: off the window the bytes are stored as they stand. -/
theorem hostBytesAssembleLittleEndian : Obligations.HostBytesAssembleLittleEndian := by
  intro s a b0 b1 b2 b3 rest hp hspace hoff
  refine ⟨{ s with pending := rest, mem := s.mem.writeBytes a [b0, b1, b2, b3] }, ?_,
    readElem_writeBytes_four .., fun x hx => readByte_writeBytes_of_outside _ _ _ _ hx, rfl, rfl, rfl, rfl⟩
  rw [step_of_pending_eq_cons hp]
  exact hostMemWrite_of_hostMemFault_eq_none (hostMemFault_eq_none hspace hoff)

/-! ### The checks, in terms of the contract's parts (R51 to R54, R129) -/

/-- What the checks of a command of alignment `align` over `size` bytes answer for the pointers in the registers. -/
def State.checksFault (s : State) (align size : Nat) : Option Fault :=
  pointerFault s.platform align size s.dstAddr s.aAddr s.bAddr

theorem checksFault_of_not_aligned {s : State} {align : Nat} (size : Nat) (h : ¬ s.pointersAligned align) :
    s.checksFault align size = some .misaligned := by
  rcases pointerFault_cases s.platform align size s.dstAddr s.aAddr s.bAddr with
    ⟨-, e⟩ | ⟨haligned, -⟩ | ⟨haligned, -⟩ | ⟨haligned, -⟩
  · exact e
  all_goals exact absurd haligned h

theorem checksFault_of_not_admitted {s : State} {align size : Nat} (haligned : s.pointersAligned align)
    (h : ¬ s.pointersAdmitted size) : s.checksFault align size = some .oob := by
  rcases pointerFault_cases s.platform align size s.dstAddr s.aAddr s.bAddr with
    ⟨hnot, -⟩ | ⟨-, -, e⟩ | ⟨-, hadmitted, -⟩ | ⟨-, hadmitted, -⟩
  · exact absurd haligned hnot
  · exact e
  all_goals exact absurd hadmitted h

theorem checksFault_eq_overlap_iff {s : State} {align size : Nat} :
    s.checksFault align size = some .overlap ↔
      s.pointersAligned align ∧ s.pointersAdmitted size ∧ ¬ s.noPartialOverlap size := by
  rw [State.checksFault]
  rcases pointerFault_cases s.platform align size s.dstAddr s.aAddr s.bAddr with
    ⟨hnot, e⟩ | ⟨-, hnot, e⟩ | ⟨haligned, hadmitted, hover, e⟩ | ⟨-, -, hnone, e⟩ <;> rw [e]
  · exact ⟨nofun, fun h => absurd h.1 hnot⟩
  · exact ⟨nofun, fun h => absurd h.2.1 hnot⟩
  · exact ⟨fun _ => ⟨haligned, hadmitted, hover⟩, fun _ => rfl⟩
  · exact ⟨nofun, fun h => absurd hnone h.2.2⟩

/-- Ranges that start at multiples of their size are identical or disjoint (95_test_vectors.md section 3.1). -/
theorem sameOrDisjoint_of_dvd {size d q : Nat} (hd : size ∣ d) (hq : size ∣ q) : sameOrDisjoint size d q := by
  obtain ⟨i, rfl⟩ := hd
  obtain ⟨j, rfl⟩ := hq
  rcases Nat.lt_trichotomy j i with hlt | rfl | hlt
  · exact .inr (.inr (Nat.mul_le_mul_left size hlt))
  · exact .inl rfl
  · exact .inr (.inl (Nat.mul_le_mul_left size hlt))

theorem noPartialOverlap_of_pointersAligned {s : State} {size : Nat} (h : s.pointersAligned size) :
    s.noPartialOverlap size := by
  obtain ⟨hd, ha, hb⟩ := h
  exact ⟨sameOrDisjoint_of_dvd hd ha, sameOrDisjoint_of_dvd hd hb⟩

/-! ### The faults of a command are those of its checks -/

/-- When the checks of a whole array pass, so do those of the W elements from a multiple of W on (R104). -/
theorem pointerFault_chunk {p : Platform} {W d pa pb o : Nat} (h : pointerFault p (4 * W) 64 d pa pb = none)
    (hdvd : W ∣ o) (ho : o + W ≤ 16) :
    pointerFault p (4 * W) (4 * W) (d + 4 * o) (pa + 4 * o) (pb + 4 * o) = none := by
  obtain ⟨⟨hd, ha, hb⟩, ⟨hra, hrb, hwd⟩, hsa, hsb⟩ := (pointerFault_eq_none_iff ..).1 h
  have hchunk : 4 * W ∣ 4 * o := Nat.mul_dvd_mul_left 4 hdvd
  exact (pointerFault_eq_none_iff ..).2
    ⟨⟨dvd_add hd hchunk, dvd_add ha hchunk, dvd_add hb hchunk⟩,
      ⟨mayRead_chunk hra ho, mayRead_chunk hrb ho, mayWrite_chunk hwd ho⟩,
      sameOrDisjoint_chunk hsa ho, sameOrDisjoint_chunk hsb ho⟩

/-- An offset of the chunk loop is a multiple of W with W elements left in the array (R104, R105). -/
theorem dvd_and_add_le_of_mem_chunkOffsets {W o : Nat} (h : o ∈ chunkOffsets W) : W ∣ o ∧ o + W ≤ 16 := by
  obtain ⟨k, hk, rfl⟩ := List.mem_map.1 h
  have hlast : W * (k + 1) ≤ W * (16 / W) := Nat.mul_le_mul_left W (List.mem_range.1 hk)
  exact ⟨dvd_mul_right W k, hlast.trans (Nat.mul_div_le 16 W)⟩

/-- A DISPATCH that passes the whole-array checks completes: no chunk can fault (R104). -/
theorem dispatchWidth_of_contract {W : Nat} {s : State} (hW : W ∣ 16) (h : s.contract (4 * W) 64) :
    dispatchWidth W s = .ok (afterArray W s).completeCommand := by
  have hnone := pointerFault_of_contract h
  have hchunks := runChunks_ok W s.dstAddr s.aAddr s.bAddr (chunkOffsets W) s fun o ho =>
    have ⟨hdvd, hle⟩ := dvd_and_add_le_of_mem_chunkOffsets ho
    pointerFault_chunk hnone hdvd hle
  obtain ⟨hw, -, -, ha, hb⟩ := h
  rw [dispatchWidth_of_written hw, hnone, hchunks, memAfterChunks_chunkOffsets s.mem hW ha hb]
  simp [afterArray, chunkOffsets]

theorem vadd_eq_error_iff {W : Nat} {s : State} (hw : s.block.pointersWritten) (f : Fault) :
    vadd W s = .error f ↔ s.checksFault (4 * W) (4 * W) = some f := by
  rw [vadd_of_written hw, State.checksFault]
  cases pointerFault s.platform (4 * W) (4 * W) s.dstAddr s.aAddr s.bAddr <;> simp

theorem dispatchWidth_eq_error_iff {W : Nat} {s : State} (hW : W ∣ 16) (hw : s.block.pointersWritten) (f : Fault) :
    dispatchWidth W s = .error f ↔ s.checksFault (4 * W) 64 = some f := by
  cases hf : s.checksFault (4 * W) 64 with
  | none =>
    rw [dispatchWidth_of_contract hW ⟨hw, (pointerFault_eq_none_iff ..).1 hf⟩]
    simp
  | some g =>
    rw [State.checksFault] at hf
    rw [dispatchWidth_of_written hw, hf]
    simp

theorem outcomeOf_eq_fault_iff {r : Except Fault State} {f : Fault} : outcomeOf r = .fault f ↔ r = .error f := by
  cases r <;> simp [outcomeOf]

theorem execDispatch_eq_fault_iff {mode : Mode} {W : Nat} {s : State} (hsel : selectWidth mode = some W)
    (hw : s.block.pointersWritten) (f : Fault) :
    execDispatch mode s = .fault f ↔ s.checksFault (4 * W) 64 = some f := by
  rw [execDispatch, hsel]
  exact outcomeOf_eq_fault_iff.trans
    (dispatchWidth_eq_error_iff (s := s.beginCommand) (dvd_of_selectWidth_eq_some hsel) hw f)

/-- The commands that use the pointers, each with the alignment and the number of bytes it checks (R91, R104). -/
def commandChecks : List (Instr × Nat × Nat) :=
  [(.vadd4, 16, 16), (.vadd8, 32, 32), (.vadd16, 64, 64), (.dispatch .narrow, 16, 64), (.dispatch .medium, 32, 64),
    (.dispatch .wide, 64, 64)]

/-- With the pointers written, a command faults exactly as its checks do. -/
theorem exec_eq_fault_iff : ∀ c ∈ commandChecks, ∀ s : State, s.block.pointersWritten → ∀ f : Fault,
    exec c.1 s = .fault f ↔ s.checksFault c.2.1 c.2.2 = some f := by
  unfold commandChecks
  simp only [List.forall_mem_cons, List.not_mem_nil, false_imp_iff, implies_true, and_true]
  exact ⟨fun s hw f => outcomeOf_eq_fault_iff.trans (vadd_eq_error_iff (W := 4) hw f),
    fun s hw f => outcomeOf_eq_fault_iff.trans (vadd_eq_error_iff (W := 8) hw f),
    fun s hw f => outcomeOf_eq_fault_iff.trans (vadd_eq_error_iff (W := 16) hw f),
    fun s hw f => execDispatch_eq_fault_iff (mode := .narrow) rfl hw f,
    fun s hw f => execDispatch_eq_fault_iff (mode := .medium) rfl hw f,
    fun s hw f => execDispatch_eq_fault_iff (mode := .wide) rfl hw f⟩

/-- Settles O21: alignment is the first check, whatever the ranges are. -/
theorem misalignedPointerFaults : Obligations.MisalignedPointerFaults := by
  intro p hp s hw h
  have hp : p ∈ commandChecks.map fun c => (c.1, c.2.1) := hp
  obtain ⟨⟨i, align, size⟩, hc, rfl⟩ := List.mem_map.1 hp
  exact (exec_eq_fault_iff _ hc s hw _).2 (checksFault_of_not_aligned size h)

/-- Settles O22: range and admission are the second check. -/
theorem outOfBoundsFaults : Obligations.OutOfBoundsFaults := fun c hc s hw haligned h =>
  (exec_eq_fault_iff c hc s hw _).2 (checksFault_of_not_admitted haligned h)

/-- Settles O23: overlap is the last check. -/
theorem dispatchPartialOverlapFaults : Obligations.DispatchPartialOverlapFaults := by
  intro p hp s hw haligned hadmitted h
  have hchecks : ∀ p ∈ [(Mode.narrow, 16), (.medium, 32)], (Instr.dispatch p.1, p.2, 64) ∈ commandChecks := by decide
  exact (exec_eq_fault_iff _ (hchecks p hp) s hw _).2 (checksFault_eq_overlap_iff.2 ⟨haligned, hadmitted, h⟩)

/-- A command that checks as many bytes as its alignment never faults F_OVERLAP. -/
theorem exec_ne_overlap {i : Instr} {n : Nat} (hi : (i, n, n) ∈ commandChecks) (s : State) :
    exec i s ≠ .fault .overlap := by
  intro h
  by_cases hw : s.block.pointersWritten
  · obtain ⟨haligned, -, hover⟩ := checksFault_eq_overlap_iff.1 ((exec_eq_fault_iff _ hi s hw _).1 h)
    exact hover (noPartialOverlap_of_pointersAligned haligned)
  · have hunwritten := unwrittenPointerFaults i (List.mem_map_of_mem (f := Prod.fst) hi) s hw
    rw [hunwritten] at h
    cases h

/-- Settles O24: each of the four checks as many bytes as its alignment. -/
theorem fullyAlignedCommandsNeverOverlap : Obligations.FullyAlignedCommandsNeverOverlap := by
  unfold Obligations.FullyAlignedCommandsNeverOverlap
  simp only [List.forall_mem_cons, List.not_mem_nil, false_imp_iff, implies_true, and_true]
  exact ⟨exec_ne_overlap (n := 16) (by decide), exec_ne_overlap (n := 32) (by decide),
    exec_ne_overlap (n := 64) (by decide), exec_ne_overlap (n := 64) (by decide)⟩

/-! ### Repeating a VADD (R58) -/

/-- Storing the same bytes again changes no byte. -/
theorem readByte_writeBytes_writeBytes (bs : List Byte) (m : Memory) (a x : Nat) :
    ((m.writeBytes a bs).writeBytes a bs).readByte x = (m.writeBytes a bs).readByte x := by
  by_cases hx : a ≤ x ∧ x < a + bs.length
  · obtain ⟨i, rfl⟩ := Nat.exists_eq_add_of_le hx.1
    have hi : i < bs.length := by omega
    rw [readByte_writeBytes_inside _ _ _ _ hi, readByte_writeBytes_inside _ _ _ _ hi]
  · exact readByte_writeBytes_of_outside _ _ _ _ (by omega)

theorem readByte_writeElems_writeElems (vs : List Bits32) (m : Memory) (p x : Nat) :
    ((m.writeElems p vs).writeElems p vs).readByte x = (m.writeElems p vs).readByte x := by
  simp only [writeElems_eq_writeBytes, readByte_writeBytes_writeBytes]

/-- The sums are the same after a store that is disjoint from both operands. -/
theorem laneSums_writeElems_of_disjoint {W d pa pb : Nat} (m : Memory) {vs : List Bits32} (hvs : vs.length = W)
    (ha : d + 4 * W ≤ pa ∨ pa + 4 * W ≤ d) (hb : d + 4 * W ≤ pb ∨ pb + 4 * W ≤ d) :
    laneSums W (m.writeElems d vs) pa pb = laneSums W m pa pb := by
  unfold laneSums
  congr 1 <;> exact readElems_congr _ _ _ _ fun x _ _ => readByte_writeElems_of_outside _ _ _ _ (by omega)

theorem addrs_of_sameFrame {s t : State} (h : sameFrame s t) :
    t.dstAddr = s.dstAddr ∧ t.aAddr = s.aAddr ∧ t.bAddr = s.bAddr := by
  obtain ⟨-, hd, ha, hb, -, -, -⟩ := h
  simp only [State.dstAddr, State.aAddr, State.bAddr, hd, ha, hb, and_self]

/-- The contract is a matter of the frame: it holds after a command when it held before. -/
theorem contract_of_sameFrame {s t : State} {align size : Nat} (hf : sameFrame s t) (h : s.contract align size) :
    t.contract align size := by
  obtain ⟨hd, ha, hb⟩ := addrs_of_sameFrame hf
  obtain ⟨-, hdst, hapt, hbpt, hplat, -, -⟩ := hf
  simpa only [State.contract, Block.pointersWritten, State.pointersAligned, State.pointersAdmitted,
    State.noPartialOverlap, hd, ha, hb, hdst, hapt, hbpt, hplat] using h

/-- A VADD whose destination is disjoint from its operands runs again, and its second run changes no byte. -/
theorem vadd_vadd_of_disjoint {W : Nat} {s : State} (h : s.contract (4 * W) (4 * W)) (hda : s.dstAddr ≠ s.aAddr)
    (hdb : s.dstAddr ≠ s.bAddr) :
    ∃ t u, outcomeOf (vadd W s) = .next t ∧ outcomeOf (vadd W t) = .next u ∧
      ∀ x, u.mem.readByte x = t.mem.readByte x := by
  obtain ⟨t, ht⟩ : ∃ t, vadd W s = .ok t := ⟨_, vadd_of_contract h⟩
  have hframe := sameFrame_of_vadd_eq_ok ht
  obtain ⟨u, hu⟩ : ∃ u, vadd W t = .ok u := ⟨_, vadd_of_contract (contract_of_sameFrame hframe h)⟩
  refine ⟨t, u, outcomeOf_eq_next_iff.2 ht, outcomeOf_eq_next_iff.2 hu, fun x => ?_⟩
  obtain ⟨hd, ha, hb⟩ := addrs_of_sameFrame hframe
  obtain ⟨-, -, -, hsa, hsb⟩ := h
  have hsums := laneSums_writeElems_of_disjoint s.mem (length_laneSums W s.mem s.aAddr s.bAddr)
    (hsa.resolve_left hda.symm) (hsb.resolve_left hdb.symm)
  rw [vadd_mem hu, hd, ha, hb, vadd_mem ht, hsums, readByte_writeElems_writeElems]

/-- Settles O11: under the contract a destination that is no operand is disjoint from both. -/
theorem vaddIsIdempotentWhenDisjoint : Obligations.VaddIsIdempotentWhenDisjoint := by
  unfold Obligations.VaddIsIdempotentWhenDisjoint
  simp only [List.forall_mem_cons, List.not_mem_nil, false_imp_iff, implies_true, and_true]
  exact ⟨fun s => vadd_vadd_of_disjoint (W := 4), fun s => vadd_vadd_of_disjoint (W := 8),
    fun s => vadd_vadd_of_disjoint (W := 16)⟩

/-! ### What may write memory, and where (R46, R47) -/

theorem issueCommand_mem_of_error {w : Bits32} {s t : State}
    (hw : decode w = .ok (.dispatch .unsupported) ∨ ∃ r, decode w = .error r) (h : issueCommand w s = .next t) :
    t.mem = s.mem := by
  rw [issueCommand] at h
  rcases hw with hdec | ⟨r, hdec⟩ <;> rw [hdec] at h
  · obtain ⟨-, -, hmem⟩ := dispatchFrame _ _ _ h
    exact hmem rfl
  · cases h
    exact raiseError_mem _ .errCmd

/-- A host operation that neither writes memory nor issues a kernel command leaves memory as it is. -/
theorem performHostOp_mem {op : HostOp} {s t : State} (h : performHostOp op s = .next t)
    (hwrite : ∀ a bytes, op ≠ .memWrite a bytes)
    (hcmd : ∀ v, op = .regWrite 0x00 32 v →
      decode (v.setWidth 32) = .ok (.dispatch .unsupported) ∨ ∃ r, decode (v.setWidth 32) = .error r) :
    t.mem = s.mem := by
  cases op with
  | regRead offset width =>
    obtain ⟨r, v, -, -, rfl⟩ := hostRegRead_eq_next h
    exact reply_mem s _
  | regWrite offset width v =>
    rcases hostRegWrite_eq_next h with ⟨hsel, hissue⟩ | ⟨-, rfl⟩ | ⟨-, rfl⟩ | ⟨-, rfl⟩ | ⟨-, rfl⟩
    · obtain ⟨rfl, rfl⟩ := selectReg_eq_cmd hsel
      exact issueCommand_mem_of_error (hcmd v rfl) hissue
    · rfl
    all_goals exact writePtr_mem s _ v
  | memRead a n =>
    obtain ⟨-, rfl⟩ := hostMemRead_eq_next h
    exact reply_mem s _
  | memWrite a bytes => exact absurd rfl (hwrite a bytes)
  | reset =>
    cases h
    exact resetBlock_mem s

/-- Settles O33: an idle step keeps the state, and of the host's operations only a memory write and a CMD write reach
memory. -/
theorem onlyKernelCommandsWriteMemory : Obligations.OnlyKernelCommandsWriteMemory := by
  intro s t h hwrite hcmd
  rcases step_eq_next h with ⟨-, rfl⟩ | ⟨op, rest, hp, hop⟩
  · rfl
  · exact performHostOp_mem (s := { s with pending := rest }) hop (fun a bytes e => hwrite a bytes rest (e ▸ hp))
      fun v e => hcmd v rest (e ▸ hp)

/-- A command that answers a next state has left memory as it was, or written only a range admitted for writing. -/
theorem mem_eq_or_mayWrite_of_exec_eq_next {i : Instr} {s t : State} (h : exec i s = .next t) :
    t.mem = s.mem ∨
    ∃ n, Platform.mayWrite s.platform s.dstAddr n ∧ keepsOutside s.mem t.mem s.dstAddr n := by
  have hvadd : ∀ W, vadd W s = .ok t →
      ∃ n, Platform.mayWrite s.platform s.dstAddr n ∧ keepsOutside s.mem t.mem s.dstAddr n := fun W hW =>
    have ⟨⟨_, _, ⟨_, _, hadmitted⟩, _⟩, _⟩ := vadd_eq_ok hW
    ⟨4 * W, hadmitted, (frame_of_vadd_eq_ok hW).2⟩
  cases i with
  | vadd4 => exact .inr (hvadd 4 (outcomeOf_eq_next_iff.1 h))
  | vadd8 => exact .inr (hvadd 8 (outcomeOf_eq_next_iff.1 h))
  | vadd16 => exact .inr (hvadd 16 (outcomeOf_eq_next_iff.1 h))
  | dispatch mode =>
    obtain ⟨-, hkeeps, hunsupported⟩ := dispatchFrame mode s t h
    rcases execDispatch_eq_next h with ⟨hmode, -⟩ | ⟨W, -, ⟨-, -, ⟨-, -, hadmitted⟩, -⟩, -⟩
    · exact .inl (hunsupported hmode)
    · exact .inr ⟨64, hadmitted, hkeeps⟩

/-- Settles O37: no byte of the window is admitted for writing. -/
theorem commandsNeverReachWindow : Obligations.CommandsNeverReachWindow := by
  intro i s t h x hbase htop
  rcases mem_eq_or_mayWrite_of_exec_eq_next h with hmem | ⟨n, ⟨-, hadmitted⟩, hkeeps⟩
  · rw [hmem]
  · by_cases hx : s.dstAddr ≤ x ∧ x < s.dstAddr + n
    · exact absurd ⟨hbase, htop⟩ (hadmitted x hx.1 hx.2).2
    · exact hkeeps x (by omega)

end Sys2Proof.Machine
end

section
/-!
PROOFS. The command word (R68 to R75): a word is a command's exactly when its three fields are the command's, so decoder and
encoder agree; the opcode table, the list of reserved words and the reserved word's step follow from that.
-/

namespace Sys2Proof

/-! ### Decoder and encoder -/

/-- A word has RSVD zero and given MODE and OP exactly when it is the word made of them. -/
theorem eq_commandWord_iff {w : Bits32} {m : BitVec 2} {o : BitVec 4} :
    w = commandWord m o ↔ rsvdField w = 0 ∧ modeField w = m ∧ opField w = o := by
  constructor
  · rintro rfl
    exact ⟨rsvdField_append .., modeField_append .., opField_append ..⟩
  · rintro ⟨hr, rfl, rfl⟩
    have hfields := eq_append_fields w
    rw [hr] at hfields
    exact hfields

theorem vaddOf_eq_ok {i j : Instr} {m : BitVec 2} (h : vaddOf i m = .ok j) : m = 0b00#2 ∧ j = i := by
  rw [vaddOf] at h
  split at h
  · next hm => exact ⟨hm, (Except.ok.inj h).symm⟩
  · cases h

theorem decode_encode (i : Instr) : decode (encode i) = .ok i := by
  cases i with
  | vadd4 => exact (Laws.TableRow.vadd4 rfl).2.2
  | vadd8 => exact (Laws.TableRow.vadd8 rfl).2.2
  | vadd16 => exact (Laws.TableRow.vadd16 rfl).2.2
  | dispatch mode => cases mode <;> rfl

/-- Each accepting branch of the decoder has fixed every field of the word. -/
theorem eq_encode_of_decode_eq_ok {w : Bits32} {i : Instr} (h : decode w = .ok i) : w = encode i := by
  rw [decode] at h
  split_ifs at h with hrsvd hop1 hop2 hop3 hop4
  · obtain ⟨hmode, rfl⟩ := vaddOf_eq_ok h
    exact eq_commandWord_iff.2 ⟨not_not.1 hrsvd, hmode, hop1⟩
  · obtain ⟨hmode, rfl⟩ := vaddOf_eq_ok h
    exact eq_commandWord_iff.2 ⟨not_not.1 hrsvd, hmode, hop2⟩
  · obtain ⟨hmode, rfl⟩ := vaddOf_eq_ok h
    exact eq_commandWord_iff.2 ⟨not_not.1 hrsvd, hmode, hop3⟩
  · cases h
    exact eq_commandWord_iff.2 ⟨not_not.1 hrsvd, (toBits_ofBits _).symm, hop4⟩

/-- Settles O2: the decoder's accepting branches one way, each command's own word the other way. -/
theorem decodeIffEncodedWord : Obligations.DecodeIffEncodedWord := fun _ i =>
  ⟨eq_encode_of_decode_eq_ok, fun h => h ▸ decode_encode i⟩

/-- Settles O1: each word, written out, is the encoding of its command. -/
theorem commandWordsDecode : Obligations.CommandWordsDecode :=
  ⟨decode_encode .vadd4, decode_encode .vadd8, decode_encode .vadd16, decode_encode (.dispatch .narrow),
    decode_encode (.dispatch .medium), decode_encode (.dispatch .wide), decode_encode (.dispatch .unsupported)⟩

/-! ### The opcode table -/

/-- A word is some DISPATCH's exactly when RSVD is zero and OP is 0x4: every MODE names a mode (R72). -/
theorem exists_decode_eq_dispatch_iff (w : Bits32) :
    (∃ m, decode w = .ok (.dispatch m)) ↔ rsvdField w = 0 ∧ opField w = 0x4#4 := by
  simp only [decodeIffEncodedWord w _, encode, eq_commandWord_iff]
  constructor
  · rintro ⟨m, hrsvd, -, hop⟩
    exact ⟨hrsvd, hop⟩
  · rintro ⟨hrsvd, hop⟩
    exact ⟨Mode.ofBits (modeField w), hrsvd, (toBits_ofBits _).symm, hop⟩

/-- A word is reserved exactly when it is no command's word (R75). -/
theorem exists_decode_eq_error_iff (w : Bits32) :
    (∃ r, decode w = .error r) ↔ decode w ≠ .ok .vadd4 ∧ decode w ≠ .ok .vadd8 ∧ decode w ≠ .ok .vadd16 ∧
      ¬ ∃ m, decode w = .ok (.dispatch m) := by
  cases decode w with
  | error r => simp
  | ok i => cases i <;> simp

/-- The mask of the DISPATCH row keeps RSVD and OP and clears MODE. -/
theorem fields_and_dispatchMask (w : Bits32) :
    rsvdField (w &&& 0xFFFFFFCF#32) = rsvdField w ∧ modeField (w &&& 0xFFFFFFCF#32) = 0 ∧
      opField (w &&& 0xFFFFFFCF#32) = opField w := by
  simp only [rsvdField, modeField, opField, BitVec.extractLsb'_and]
  exact ⟨BitVec.and_allOnes, BitVec.and_zero, BitVec.and_allOnes⟩

theorem and_dispatchMask_eq_iff (w : Bits32) :
    w &&& 0xFFFFFFCF#32 = 0x00000004#32 ↔ rsvdField w = 0 ∧ opField w = 0x4#4 := by
  obtain ⟨hrsvd, hmode, hop⟩ := fields_and_dispatchMask w
  rw [show 0x00000004#32 = commandWord 0b00#2 0x4#4 from rfl, eq_commandWord_iff, hrsvd, hmode, hop]
  exact and_congr_right' (and_iff_right rfl)

/-- A row with a full mask fixes the whole word. -/
theorem decode_eq_ok_iff_fullMask (w : Bits32) (i : Instr) : decode w = .ok i ↔ w &&& 0xFFFFFFFF#32 = encode i := by
  rw [decodeIffEncodedWord w i, show w &&& 0xFFFFFFFF#32 = w from BitVec.and_allOnes]

/-- Settles O3: a VADD's row fixes the whole word, the DISPATCH row RSVD and OP, and a reserved word is no command's. -/
theorem decodeFollowsOpcodeTable : Obligations.DecodeFollowsOpcodeTable := by
  intro w
  have hvadd4 : decode w = .ok .vadd4 ↔ w &&& 0xFFFFFFFF#32 = 0x00000001#32 := decode_eq_ok_iff_fullMask w .vadd4
  have hvadd8 : decode w = .ok .vadd8 ↔ w &&& 0xFFFFFFFF#32 = 0x00000002#32 := decode_eq_ok_iff_fullMask w .vadd8
  have hvadd16 : decode w = .ok .vadd16 ↔ w &&& 0xFFFFFFFF#32 = 0x00000003#32 := decode_eq_ok_iff_fullMask w .vadd16
  have hdispatch := (exists_decode_eq_dispatch_iff w).trans (and_dispatchMask_eq_iff w).symm
  refine ⟨hvadd4, hvadd8, hvadd16, hdispatch, ?_⟩
  rw [exists_decode_eq_error_iff, Ne, Ne, Ne, hvadd4, hvadd8, hvadd16, hdispatch]

/-! ### Reserved words -/

theorem toNat_rsvdField (w : Bits32) : (rsvdField w).toNat = w.toNat / 64 := by
  rw [rsvdField, BitVec.extractLsb'_toNat, Nat.shiftRight_eq_div_pow]
  omega

theorem toNat_opField (w : Bits32) : (opField w).toNat = w.toNat % 16 := by
  rw [opField, BitVec.extractLsb'_toNat, Nat.shiftRight_zero]

/-- The reserved words in numbers, field by field (R75). -/
theorem exists_decode_eq_error_iff_toNat (w : Bits32) : (∃ r, decode w = .error r) ↔
    w.toNat / 64 ≠ 0 ∨ w.toNat % 16 = 0 ∨ 5 ≤ w.toNat % 16 ∨ (w.toNat % 16 ≤ 3 ∧ w.toNat / 16 % 4 ≠ 0) := by
  have hdispatch : (∃ m, decode w = .ok (.dispatch m)) ↔ w.toNat / 64 = 0 ∧ w.toNat % 16 = 4 := by
    rw [exists_decode_eq_dispatch_iff, ← toNat_rsvdField, ← toNat_opField, BitVec.toNat_eq, BitVec.toNat_eq]
    rfl
  have hword (i : Instr) : decode w = .ok i ↔ w.toNat = (encode i).toNat := by
    rw [decodeIffEncodedWord w i, BitVec.toNat_eq]
  have hvadd4 : decode w = .ok .vadd4 ↔ w.toNat = 1 := hword .vadd4
  have hvadd8 : decode w = .ok .vadd8 ↔ w.toNat = 2 := hword .vadd8
  have hvadd16 : decode w = .ok .vadd16 ↔ w.toNat = 3 := hword .vadd16
  rw [exists_decode_eq_error_iff, Ne, Ne, Ne, hvadd4, hvadd8, hvadd16, hdispatch]
  omega

end Sys2Proof

namespace Sys2Proof.Machine

/-- A reserved word is recorded and raises ERR_CMD (R115, R124). -/
theorem issueCommand_of_decode_eq_error {w : Bits32} {r : ReservedWord} (h : decode w = .error r) (s : State) :
    issueCommand w s = .next ((s.acceptCommand w).raiseError .errCmd) := by
  rw [issueCommand, h]

theorem statusWord_raiseError_errCmd {s : State} (h : s.block.errMode = false) :
    (s.raiseError .errCmd).block.statusWord = 0x00000005#32 := by
  simp [Block.statusWord, statusBit, h]

/-- Settles O4: the reserved words are those no command has, and after acceptance ERR_CMD changes STATUS alone. -/
theorem reservedWordRaisesErrCmd : Obligations.ReservedWordRaisesErrCmd := by
  refine ⟨exists_decode_eq_error_iff_toNat, fun s v rest hpending ⟨r, hr⟩ => ?_⟩
  refine ⟨_, (step_of_pending_eq_cons hpending).trans (issueCommand_of_decode_eq_error hr _),
    statusWord_raiseError_errCmd (acceptCommand_errMode _ _), ?_⟩
  simp

end Sys2Proof.Machine
end

section
/-!
PROOFS. What a VADD writes (spec/40_vector_add.md R98), and that the order of its lanes cannot be observed (R92, R94).
-/

namespace Sys2Proof.Machine

/-! ### The sums a VADD leaves (R98) -/

theorem holdsSums_of_vadd_eq_ok {W : Nat} {s t : State} (h : vadd W s = .ok t) : holdsSums s t W := by
  intro i hi
  rw [vadd_mem h, readElem_writeElems_inside _ _ _ _ (by simpa using hi), getElem_laneSums]

/-- A VADD under its contract completes, with its sums, its frame and its report. -/
theorem vadd_completes {W : Nat} {s : State} (h : s.contract (4 * W) (4 * W)) :
    ∃ t, outcomeOf (vadd W s) = .next t ∧ holdsSums s t W ∧ keepsOutside s.mem t.mem s.dstAddr (4 * W) ∧
      reportsSuccess t 1 ∧ sameFrame s t := by
  obtain ⟨t, ht⟩ : ∃ t, vadd W s = .ok t := ⟨_, vadd_of_contract h⟩
  obtain ⟨hframe, hkeeps⟩ := frame_of_vadd_eq_ok ht
  exact ⟨t, outcomeOf_eq_next_iff.2 ht, holdsSums_of_vadd_eq_ok ht, hkeeps, reportsSuccess_of_vadd_eq_ok ht, hframe⟩

/-- Settles O7: the contract is all that completion needs, and the sums are taken from the memory before the command. -/
theorem vaddWritesLaneSums : Obligations.VaddWritesLaneSums := by
  unfold Obligations.VaddWritesLaneSums
  simp only [List.forall_mem_cons, List.not_mem_nil, false_imp_iff, implies_true, and_true]
  exact ⟨fun _ => vadd_completes (W := 4), fun _ => vadd_completes (W := 8), fun _ => vadd_completes (W := 16)⟩

/-! ### Lanes one at a time (R92, R94) -/

/-- The sum of lane i, its operand elements read from m. -/
def laneSum (m : Memory) (pa pb i : Nat) : Bits32 := fadd32 (m.readElem (pa + 4 * i)) (m.readElem (pb + 4 * i))

/-- Store v i as element i of the destination. -/
def storeLane (d : Nat) (v : Nat → Bits32) (m : Memory) (i : Nat) : Memory := m.writeElem (d + 4 * i) (v i)

/-- Run lane i alone: its operands come from the memory so far. -/
def runLane (d pa pb : Nat) (m : Memory) (i : Nat) : Memory := storeLane d (laneSum m pa pb) m i

theorem readByte_writeElem (m : Memory) (p x : Nat) (v : Bits32) :
    (m.writeElem p v).readByte x =
      if p ≤ x ∧ x < p + 4 then (elemBytes v).getD (x - p) 0 else m.readByte x := by
  split
  · next h =>
    have hlt : x - p < (elemBytes v).length := by rw [length_elemBytes]; omega
    have hread := readByte_writeBytes_inside (elemBytes v) m p (x - p) hlt
    rwa [Nat.add_sub_cancel' h.1, ← List.getD_eq_getElem _ 0 hlt] at hread
  · exact readByte_writeElem_of_outside _ _ _ _ (by omega)

/-- After storing lanes, a byte depends on which lanes were stored and not on their order. -/
theorem readByte_foldl_storeLane (d : Nat) (v : Nat → Bits32) (lanes : List Nat) (m : Memory) (x : Nat) :
    (lanes.foldl (storeLane d v) m).readByte x =
      if d ≤ x ∧ (x - d) / 4 ∈ lanes then (elemBytes (v ((x - d) / 4))).getD ((x - d) % 4) 0 else m.readByte x := by
  induction lanes generalizing m with
  | nil => simp
  | cons i rest ih =>
    rw [List.foldl_cons, ih, storeLane, readByte_writeElem]
    by_cases hrest : d ≤ x ∧ (x - d) / 4 ∈ rest
    · rw [if_pos hrest, if_pos ⟨hrest.1, List.mem_cons_of_mem i hrest.2⟩]
    · rw [if_neg hrest]
      by_cases hi : d + 4 * i ≤ x ∧ x < d + 4 * i + 4
      · have hlane : (x - d) / 4 = i := by omega
        have hbyte : (x - d) % 4 = x - (d + 4 * i) := by omega
        rw [if_pos hi, if_pos ⟨by omega, by simp [hlane]⟩, hlane, hbyte]
      · rw [if_neg hi, if_neg]
        rintro ⟨hd, hmem⟩
        rcases List.mem_cons.1 hmem with hlane | hmem
        · omega
        · exact hrest ⟨hd, hmem⟩

/-- Storing element i changes no operand element of another lane, so it does not change that lane's sum: the destination is
identical to or disjoint from each operand. -/
theorem laneSum_storeLane_of_ne {W d pa pb i j : Nat} (v : Nat → Bits32) (m : Memory)
    (ha : sameOrDisjoint (4 * W) d pa) (hb : sameOrDisjoint (4 * W) d pb) (hi : i < W) (hj : j < W) (hne : j ≠ i) :
    laneSum (storeLane d v m i) pa pb j = laneSum m pa pb j := by
  unfold sameOrDisjoint at ha hb
  have hread : ∀ q, (q = d ∨ d + 4 * W ≤ q ∨ q + 4 * W ≤ d) →
      (storeLane d v m i).readElem (q + 4 * j) = m.readElem (q + 4 * j) := fun q hq =>
    readElem_writeElem_of_disjoint _ _ _ _ (by omega)
  rw [laneSum, laneSum, hread pa ha, hread pb hb]

/-- Lanes that run one at a time, each once, store the sums of the memory they began with. -/
theorem foldl_runLane_eq_foldl_storeLane {W d pa pb : Nat} (ha : sameOrDisjoint (4 * W) d pa)
    (hb : sameOrDisjoint (4 * W) d pb) (lanes : List Nat) (m : Memory) (hnodup : lanes.Nodup)
    (hlt : ∀ i ∈ lanes, i < W) :
    lanes.foldl (runLane d pa pb) m = lanes.foldl (storeLane d (laneSum m pa pb)) m := by
  induction lanes generalizing m with
  | nil => rw [List.foldl_nil, List.foldl_nil]
  | cons i rest ih =>
    obtain ⟨hi, hrest⟩ := List.forall_mem_cons.1 hlt
    obtain ⟨hnotin, hnodup⟩ := List.nodup_cons.1 hnodup
    rw [List.foldl_cons, List.foldl_cons, ih _ hnodup hrest, runLane]
    refine List.foldl_ext _ _ _ fun m' j hj => ?_
    have hne : j ≠ i := fun e => hnotin (e ▸ hj)
    exact congrArg (m'.writeElem (d + 4 * j)) (laneSum_storeLane_of_ne _ m ha hb hi (hrest j hj) hne)

theorem laneSums_eq_map_laneSum (W : Nat) (m : Memory) (pa pb : Nat) :
    laneSums W m pa pb = (List.range W).map (laneSum m pa pb) := by
  apply List.ext_getElem
  · simp
  · intro i h1 h2
    rw [getElem_laneSums, List.getElem_map, List.getElem_range, laneSum]

theorem writeElems_map_range (v : Nat → Bits32) (n d : Nat) (m : Memory) :
    m.writeElems d ((List.range n).map v) = (List.range n).foldl (storeLane d v) m := by
  induction n with
  | zero => rfl
  | succ n ih =>
    rw [List.range_succ, List.map_append, writeElems_append, ih, List.foldl_append, List.length_map, List.length_range]
    rfl

/-- The lanes of a VADD in any order leave every byte as the command does. -/
theorem vadd_laneOrder {W : Nat} {s : State} (h : s.contract (4 * W) (4 * W)) :
    ∃ t, outcomeOf (vadd W s) = .next t ∧ ∀ lanes : List Nat, lanes.Perm (List.range W) → ∀ x : Nat,
      (lanes.foldl (runLane s.dstAddr s.aAddr s.bAddr) s.mem).readByte x = t.mem.readByte x := by
  obtain ⟨t, ht⟩ : ∃ t, vadd W s = .ok t := ⟨_, vadd_of_contract h⟩
  obtain ⟨-, -, -, ha, hb⟩ := h
  refine ⟨t, outcomeOf_eq_next_iff.2 ht, fun lanes hperm x => ?_⟩
  have hnodup : lanes.Nodup := hperm.nodup_iff.2 List.nodup_range
  have hlt : ∀ i ∈ lanes, i < W := fun i hi => List.mem_range.1 (hperm.mem_iff.1 hi)
  rw [foldl_runLane_eq_foldl_storeLane ha hb lanes s.mem hnodup hlt, vadd_mem ht, laneSums_eq_map_laneSum,
    writeElems_map_range, readByte_foldl_storeLane, readByte_foldl_storeLane]
  simp only [hperm.mem_iff]

/-- Settles O10: a lane never writes an operand element of another lane. -/
theorem laneOrderIsImmaterial : Obligations.LaneOrderIsImmaterial := by
  unfold Obligations.LaneOrderIsImmaterial
  simp only [List.forall_mem_cons, List.not_mem_nil, false_imp_iff, implies_true, and_true]
  exact ⟨fun _ => vadd_laneOrder (W := 4), fun _ => vadd_laneOrder (W := 8), fun _ => vadd_laneOrder (W := 16)⟩

end Sys2Proof.Machine
end

section
/-!
PROOFS. Binary32 addition by the class of its operands (spec/40_vector_add.md R84, R86, R90): NaN operands, infinities, and
finite data, whose sums are finite or an infinity.
-/

namespace Sys2Proof.Machine

/-! ### The classes of a datum (R83) -/

theorem isNaN_eq_false_of_isInf {a : Bits32} (h : isInf a = true) : isNaN a = false := by
  obtain ⟨-, hfrac⟩ := Bool.and_eq_true_iff.1 h
  simp [isNaN, of_decide_eq_true hfrac]

theorem isNaN_eq_false_of_isFinite {a : Bits32} (h : isFinite a = true) : isNaN a = false := by
  simp [isNaN, of_decide_eq_true h]

theorem isInf_eq_false_of_isFinite {a : Bits32} (h : isFinite a = true) : isInf a = false := by
  simp [isInf, of_decide_eq_true h]

theorem isFinite_or_isInf_of_not_isNaN {a : Bits32} (h : isNaN a = false) : isFinite a = true ∨ isInf a = true := by
  by_cases he : f32Exp a = 255
  · exact .inr (by simpa [isNaN, isInf, he] using h)
  · exact .inl (decide_eq_true he)

theorem eq_of_isInf_of_f32Sign_eq {a b : Bits32} (ha : isInf a = true) (hb : isInf b = true)
    (hs : f32Sign a = f32Sign b) : a = b := by
  simp only [isInf, Bool.and_eq_true, decide_eq_true_eq] at ha hb
  exact eq_of_fields hs (ha.1.trans hb.1.symm) (ha.2.trans hb.2.symm)

/-! ### NaN results (R84, R86) -/

/-- The operands whose sum is NAN_PROP (R84): a NaN, or infinities of opposite sign. -/
def nanOperands (a b : Bits32) : Prop :=
  isNaN a = true ∨ isNaN b = true ∨ (isInf a = true ∧ isInf b = true ∧ f32Sign a ≠ f32Sign b)

theorem nanOperands_comm {a b : Bits32} (h : nanOperands a b) : nanOperands b a := by
  rcases h with ha | hb | ⟨ha, hb, hs⟩
  · exact .inr (.inl ha)
  · exact .inl hb
  · exact .inr (.inr ⟨hb, ha, hs.symm⟩)

theorem fadd32_of_nanOperands {a b : Bits32} (h : nanOperands a b) : fadd32 a b = nanProp a b := by
  rw [fadd32]
  rcases h with ha | hb | ⟨ha, hb, hs⟩
  · simp [ha]
  · simp [hb]
  · simp [ha, hb, hs]

theorem isQNaN_fadd32_of_nanOperands {a b : Bits32} (h : nanOperands a b) : isQNaN (fadd32 a b) = true := by
  rw [fadd32_of_nanOperands h]
  exact isQNaN_nanProp a b

/-- Operands without a NaN result are two finite data, or an infinity with a finite datum or itself on either side. -/
theorem operands_of_not_nanOperands {a b : Bits32} (h : ¬ nanOperands a b) :
    (isFinite a = true ∧ isFinite b = true) ∨ (isInf a = true ∧ (isFinite b = true ∨ b = a)) ∨
      (isInf b = true ∧ (isFinite a = true ∨ a = b)) := by
  obtain ⟨ha, hb, hsign⟩ := not_or.1 h |>.imp_right not_or.1
  rcases isFinite_or_isInf_of_not_isNaN (Bool.eq_false_iff.2 ha) with hfa | hia <;>
    rcases isFinite_or_isInf_of_not_isNaN (Bool.eq_false_iff.2 hb) with hfb | hib
  · exact .inl ⟨hfa, hfb⟩
  · exact .inr (.inr ⟨hib, .inl hfa⟩)
  · exact .inr (.inl ⟨hia, .inl hfb⟩)
  · have hs : f32Sign a = f32Sign b := by
      by_contra hs
      exact hsign ⟨hia, hib, hs⟩
    exact .inr (.inl ⟨hia, .inr (eq_of_isInf_of_f32Sign_eq hia hib hs).symm⟩)

/-! ### Infinities (R84) -/

theorem fadd32_of_isInf {a b : Bits32} (ha : isInf a = true) (hb : isFinite b = true ∨ b = a) :
    fadd32 a b = a ∧ fadd32 b a = a := by
  have hna := isNaN_eq_false_of_isInf ha
  rcases hb with hb | rfl
  · simp [fadd32, ha, hna, isNaN_eq_false_of_isFinite hb, isInf_eq_false_of_isFinite hb]
  · simp [fadd32, ha, hna]

/-- Settles O47: an infinity passes every test of R84 before the first that returns it. -/
theorem faddPropagatesInfinity : Obligations.FaddPropagatesInfinity := fun _ _ => fadd32_of_isInf

/-! ### Commutation (R90) -/

theorem fadd32_comm_of_isFinite {a b : Bits32} (ha : isFinite a = true) (hb : isFinite b = true) :
    fadd32 a b = fadd32 b a := by
  rw [fadd32_of_finite ha hb, fadd32_of_finite hb ha, Int.add_comm, Bool.and_comm]

theorem fadd32_comm_of_not_nanOperands {a b : Bits32} (h : ¬ nanOperands a b) : fadd32 a b = fadd32 b a := by
  rcases operands_of_not_nanOperands h with ⟨ha, hb⟩ | ⟨ha, hb⟩ | ⟨hb, ha⟩
  · exact fadd32_comm_of_isFinite ha hb
  · obtain ⟨hab, hba⟩ := fadd32_of_isInf ha hb
    exact hab.trans hba.symm
  · obtain ⟨hba, hab⟩ := fadd32_of_isInf hb ha
    exact hab.trans hba.symm

theorem not_nanOperands {a b : Bits32} (ha : isNaN a = false) (hb : isNaN b = false)
    (h : ¬ (isInf a = true ∧ isInf b = true ∧ f32Sign a ≠ f32Sign b)) : ¬ nanOperands a b := by
  simp only [nanOperands, ha, hb, Bool.false_eq_true, false_or]
  exact h

/-- Settles O48: each class of operands commutes. -/
theorem faddCommutes : Obligations.FaddCommutes := fun _ _ =>
  ⟨fun ha hb h => fadd32_comm_of_not_nanOperands (not_nanOperands ha hb h),
    fun h => ⟨isQNaN_fadd32_of_nanOperands h, isQNaN_fadd32_of_nanOperands (nanOperands_comm h)⟩⟩

/-! ### What roundPack can answer (R85) -/

/-- The infinity of a sign. -/
theorem isInf_signWord_or (b : Bool) : isInf (signWord b ||| 0x7F800000#32) = true := by
  cases b <;> decide

/-- roundPack answers a finite datum while the exponent after rounding is in range, and an infinity otherwise. -/
theorem isFinite_or_isInf_roundPack {x : Int} (hx : x ≠ 0) :
    (¬ 253 < (roundSignificand x.natAbs).2 ∧ isFinite (roundPack x) = true) ∨
      (253 < (roundSignificand x.natAbs).2 ∧ isInf (roundPack x) = true) := by
  by_cases hk : 253 < (roundSignificand x.natAbs).2
  · exact .inr ⟨hk, by rw [roundPack_overflow x hk]; exact isInf_signWord_or _⟩
  · exact .inl ⟨hk, (roundPack_finite x hx hk).1⟩

/-- The sum of two finite data is a zero for an exact sum of zero, and the rounded sum otherwise. -/
theorem fadd32_of_finite_cases {a b : Bits32} (ha : isFinite a = true) (hb : isFinite b = true) :
    (f32Units a + f32Units b = 0 ∧ (fadd32 a b = 0x80000000#32 ∨ fadd32 a b = 0x00000000#32)) ∨
      (f32Units a + f32Units b ≠ 0 ∧ fadd32 a b = roundPack (f32Units a + f32Units b)) := by
  rw [fadd32_of_finite ha hb]
  by_cases hx : f32Units a + f32Units b = 0
  · refine .inl ⟨hx, ?_⟩
    rw [if_pos hx]
    exact ite_eq_or_eq ..
  · exact .inr ⟨hx, if_neg hx⟩

theorem isNaN_fadd32_of_isFinite {a b : Bits32} (ha : isFinite a = true) (hb : isFinite b = true) :
    isNaN (fadd32 a b) = false := by
  rcases fadd32_of_finite_cases ha hb with ⟨-, h | h⟩ | ⟨hx, h⟩ <;> rw [h]
  · decide
  · decide
  · rcases isFinite_or_isInf_roundPack hx with ⟨-, hfin⟩ | ⟨-, hinf⟩
    · exact isNaN_eq_false_of_isFinite hfin
    · exact isNaN_eq_false_of_isInf hinf

theorem isNaN_fadd32_of_not_nanOperands {a b : Bits32} (h : ¬ nanOperands a b) : isNaN (fadd32 a b) = false := by
  rcases operands_of_not_nanOperands h with ⟨ha, hb⟩ | ⟨ha, hb⟩ | ⟨hb, ha⟩
  · exact isNaN_fadd32_of_isFinite ha hb
  · rw [(fadd32_of_isInf ha hb).1]
    exact isNaN_eq_false_of_isInf ha
  · rw [(fadd32_of_isInf hb ha).2]
    exact isNaN_eq_false_of_isInf hb

/-- Settles O46: NAN_PROP is the only source of a NaN, and it answers a quiet one. -/
theorem faddIsNanExactly : Obligations.FaddIsNanExactly := fun _ _ =>
  ⟨isQNaN_fadd32_of_nanOperands, fun ha hb h => isNaN_fadd32_of_not_nanOperands (not_nanOperands ha hb h)⟩

/-! ### Zero sums (R88) -/

theorem f32Exp_xor_sign (x : Bits32) : f32Exp (x ^^^ 0x80000000#32) = f32Exp x := by
  rw [f32Exp, f32Exp, BitVec.extractLsb'_xor, show (0x80000000#32).extractLsb' 23 8 = 0#8 by decide, BitVec.xor_zero]

theorem f32Frac_xor_sign (x : Bits32) : f32Frac (x ^^^ 0x80000000#32) = f32Frac x := by
  rw [f32Frac, f32Frac, BitVec.extractLsb'_xor, show (0x80000000#32).extractLsb' 0 23 = 0#23 by decide,
    BitVec.xor_zero]

theorem f32Sign_xor_sign (x : Bits32) : f32Sign (x ^^^ 0x80000000#32) = !f32Sign x := by
  rw [f32Sign, f32Sign, BitVec.getLsbD_xor, show (0x80000000#32).getLsbD 31 = true by decide, Bool.xor_true]

theorem f32Units_xor_sign (x : Bits32) : f32Units (x ^^^ 0x80000000#32) = -f32Units x := by
  rw [f32Units, f32Units, f32Mag, f32Mag, f32Sign_xor_sign, f32Exp_xor_sign, f32Frac_xor_sign]
  cases f32Sign x <;> simp

theorem fadd32_xor_sign {x : Bits32} (hx : isFinite x = true) : fadd32 x (x ^^^ 0x80000000#32) = 0x00000000#32 := by
  have hx' : isFinite (x ^^^ 0x80000000#32) = true := by rwa [isFinite, f32Exp_xor_sign]
  rw [fadd32_of_finite hx hx', f32Units_xor_sign, if_pos (Int.add_right_neg _), f32Sign_xor_sign, Bool.and_not_self]
  rfl

/-- Settles O49: turning the sign bit turns the sign of the value alone. -/
theorem faddZeroSums : Obligations.FaddZeroSums := ⟨fun _ => fadd32_xor_sign, by decide, by decide, by decide, by decide⟩

end Sys2Proof.Machine
end

section
/-!
PROOFS. The rounding of a finite sum (spec/40_vector_add.md R85, R88): when it overflows, what it is worth, and that it is
nearest to the exact sum. Values are in units of 2^-149.
-/

namespace Sys2Proof.Machine

/-! ### The value of a datum and its bits -/

theorem f32Mag_of_exp_eq_zero {x : Bits32} (h : f32Exp x = 0) : f32Mag x = f32Frac x := by rw [f32Mag, if_pos h]

theorem f32Mag_of_exp_ne_zero {x : Bits32} (h : f32Exp x ≠ 0) :
    f32Mag x = (2 ^ 23 + f32Frac x) * 2 ^ (f32Exp x - 1) := by rw [f32Mag, if_neg h]

theorem log2_f32Mag_of_exp_eq_zero {x : Bits32} (h : f32Exp x = 0) : (f32Mag x).log2 < 23 := by
  have hfrac := f32Frac_lt x
  rw [f32Mag_of_exp_eq_zero h]
  by_cases h0 : f32Frac x = 0
  · rw [h0, Nat.log2_zero]
    decide
  · exact (Nat.log2_lt h0).2 hfrac

theorem log2_f32Mag_of_exp_ne_zero {x : Bits32} (h : f32Exp x ≠ 0) : (f32Mag x).log2 = f32Exp x + 22 := by
  have hfrac := f32Frac_lt x
  have hpos : 0 < 2 ^ (f32Exp x - 1) := Nat.two_pow_pos _
  refine (Nat.log2_eq_iff (by rw [f32Mag_of_exp_ne_zero h]; positivity)).2 ?_
  rw [f32Mag_of_exp_ne_zero h, show f32Exp x + 22 = 23 + (f32Exp x - 1) by omega, pow_succ 2 (23 + _), pow_add]
  generalize 2 ^ (f32Exp x - 1) = p at *
  have hlo : 2 ^ 23 * p ≤ (2 ^ 23 + f32Frac x) * p := Nat.mul_le_mul_right p (Nat.le_add_right _ _)
  have hhi : (2 ^ 23 + f32Frac x) * p < 2 ^ 24 * p := Nat.mul_lt_mul_of_pos_right (by omega) hpos
  exact ⟨hlo, by omega⟩

/-- The exponent field is determined by the magnitude. -/
theorem f32Exp_eq_log2 (x : Bits32) : f32Exp x = (f32Mag x).log2 - 22 := by
  by_cases h : f32Exp x = 0
  · have hlog := log2_f32Mag_of_exp_eq_zero h
    omega
  · rw [log2_f32Mag_of_exp_ne_zero h, Nat.add_sub_cancel]

theorem f32Frac_eq_of_f32Mag_eq {x y : Bits32} (h : f32Mag x = f32Mag y) : f32Frac x = f32Frac y := by
  have hexp : f32Exp x = f32Exp y := by rw [f32Exp_eq_log2, f32Exp_eq_log2, h]
  by_cases hx : f32Exp x = 0
  · rwa [f32Mag_of_exp_eq_zero hx, f32Mag_of_exp_eq_zero (hexp ▸ hx)] at h
  · rw [f32Mag_of_exp_ne_zero hx, f32Mag_of_exp_ne_zero (hexp ▸ hx), hexp] at h
    exact Nat.add_left_cancel (Nat.eq_of_mul_eq_mul_right (Nat.two_pow_pos _) h)

theorem f32Sign_eq_of_f32Units_ne_zero {x : Bits32} (h : f32Units x ≠ 0) : f32Sign x = decide (f32Units x < 0) := by
  rw [f32Units] at h ⊢
  cases hs : f32Sign x
  · simp
  · simp [hs] at h ⊢
    omega

/-- Only the two zeros share a value. -/
theorem eq_of_f32Units_eq {x y : Bits32} (h0 : f32Units x ≠ 0) (h : f32Units x = f32Units y) : x = y := by
  have hmag : f32Mag x = f32Mag y := by rw [← natAbs_f32Units, ← natAbs_f32Units, h]
  refine eq_of_fields ?_ ?_ (f32Frac_eq_of_f32Mag_eq hmag)
  · rw [f32Sign_eq_of_f32Units_ne_zero h0, f32Sign_eq_of_f32Units_ne_zero (h ▸ h0), h]
  · rw [f32Exp_eq_log2, f32Exp_eq_log2, hmag]

/-- The magnitude is a whole number of units of its 24th highest bit, as the value of every datum is. -/
def fitsSignificand (m : Nat) : Prop := 2 ^ (m.log2 - 23) ∣ m

theorem fitsSignificand_f32Mag (x : Bits32) : fitsSignificand (f32Mag x) := by
  rw [fitsSignificand]
  by_cases h : f32Exp x = 0
  · have hlog := log2_f32Mag_of_exp_eq_zero h
    rw [Nat.sub_eq_zero_of_le hlog.le, pow_zero]
    exact one_dvd _
  · rw [log2_f32Mag_of_exp_ne_zero h, f32Mag_of_exp_ne_zero h]
    exact dvd_mul_left _ _

theorem fitsSignificand_of_lt {m : Nat} (h : m < 2 ^ 24) : fitsSignificand m := by
  have hlog : m.log2 - 23 = 0 := by
    by_cases h0 : m = 0
    · rw [h0, Nat.log2_zero]
    · have := (Nat.log2_lt h0).2 h
      omega
  rw [fitsSignificand, hlog, pow_zero]
  exact one_dvd _

theorem f32Mag_lt_of_isFinite {x : Bits32} (h : isFinite x = true) : f32Mag x < (2 ^ 25 - 1) * 2 ^ 252 := by
  have hexp : f32Exp x ≠ 255 := of_decide_eq_true h
  have hlt := f32Exp_lt x
  have hfrac := f32Frac_lt x
  by_cases h0 : f32Exp x = 0
  · rw [f32Mag_of_exp_eq_zero h0]
    exact hfrac.trans (by decide)
  · rw [f32Mag_of_exp_ne_zero h0]
    calc (2 ^ 23 + f32Frac x) * 2 ^ (f32Exp x - 1)
        ≤ (2 ^ 24 - 1) * 2 ^ 253 := Nat.mul_le_mul (by omega) (Nat.pow_le_pow_right (by decide) (by omega))
      _ < (2 ^ 25 - 1) * 2 ^ 252 := by decide

/-! ### Overflow (R85, R88) -/

/-- At the top of a binade the 24-bit significand carries from the last tie point on, which goes to the even side. -/
theorem roundTiesToEven_eq_two_pow_iff {m K : Nat} (hm : m < 2 ^ (K + 25)) :
    roundTiesToEven m (K + 1) = 2 ^ 24 ↔ (2 ^ 25 - 1) * 2 ^ K ≤ m := by
  obtain ⟨hlo, hhi, htie⟩ := roundTiesToEven_spec m (K + 1)
  generalize roundTiesToEven m (K + 1) = n at *
  have hpos : 0 < 2 ^ K := Nat.two_pow_pos K
  rw [pow_add] at hm
  rw [pow_succ] at hlo hhi htie
  generalize 2 ^ K = p at *
  constructor
  · rintro rfl
    omega
  · intro hle
    rcases Nat.lt_trichotomy n (2 ^ 24) with hn | hn | hn
    · have hodd : n * (p * 2) ≤ (2 ^ 24 - 1) * (p * 2) := Nat.mul_le_mul_right _ (by omega)
      have heven := htie (.inl (by omega))
      have hsmall : n * (p * 2) ≤ (2 ^ 24 - 2) * (p * 2) := Nat.mul_le_mul_right _ (by omega)
      omega
    · exact hn
    · have hbig : (2 ^ 24 + 1) * (p * 2) ≤ n * (p * 2) := Nat.mul_le_mul_right _ hn
      omega

theorem roundSignificand_snd (m : Nat) :
    (roundSignificand m).2 =
      if roundTiesToEven m (m.log2 - 23) = 2 ^ 24 then m.log2 - 23 + 1 else m.log2 - 23 := by
  rw [roundSignificand]
  exact apply_ite Prod.snd ..

/-- The exponent after rounding passes K + 1 exactly from the tie point below 2^(K + 25) on. -/
theorem lt_roundSignificand_snd_iff {m : Nat} (hm : m ≠ 0) (K : Nat) :
    K + 1 < (roundSignificand m).2 ↔ (2 ^ 25 - 1) * 2 ^ K ≤ m := by
  rw [roundSignificand_snd]
  have hpow : 2 ^ (K + 24) ≤ (2 ^ 25 - 1) * 2 ^ K ∧ (2 ^ 25 - 1) * 2 ^ K ≤ 2 ^ (K + 25) := by
    rw [pow_add, pow_add]
    omega
  rcases Nat.lt_trichotomy m.log2 (K + 24) with hlog | hlog | hlog
  · have hlt : m < 2 ^ (K + 24) := (Nat.log2_lt hm).1 hlog
    split <;> omega
  · have hlt : m < 2 ^ (K + 25) := (Nat.log2_lt hm).1 (by omega)
    rw [show m.log2 - 23 = K + 1 by omega, ← roundTiesToEven_eq_two_pow_iff hlt]
    split <;> omega
  · have hle : 2 ^ (K + 25) ≤ m := (Nat.le_log2 hm).1 hlog
    split <;> omega

theorem isInf_roundPack_iff {x : Int} (hx : x ≠ 0) :
    isInf (roundPack x) = true ↔ (2 ^ 25 - 1) * 2 ^ 252 ≤ x.natAbs := by
  rw [← lt_roundSignificand_snd_iff (Int.natAbs_ne_zero.2 hx)]
  rcases isFinite_or_isInf_roundPack hx with ⟨hk, hfin⟩ | ⟨hk, hinf⟩
  · simp [isInf_eq_false_of_isFinite hfin, hk]
  · simp [hinf, hk]

theorem roundPack_eq_of_isInf {x : Int} (hx : x ≠ 0) (h : isInf (roundPack x) = true) :
    roundPack x = if x < 0 then 0xFF800000#32 else 0x7F800000#32 := by
  have hk := (lt_roundSignificand_snd_iff (Int.natAbs_ne_zero.2 hx) 252).2 ((isInf_roundPack_iff hx).1 h)
  rw [roundPack_overflow x hk]
  by_cases hneg : x < 0 <;> simp [hneg, signWord]

/-- Settles O52: the rounded exponent passes 127 exactly from the tie point below 2^128 on. -/
theorem faddOverflowsExactly : Obligations.FaddOverflowsExactly := by
  intro a b ha hb
  rcases fadd32_of_finite_cases ha hb with ⟨hx, h | h⟩ | ⟨hx, h⟩ <;> rw [h]
  · rw [hx]
    decide
  · rw [hx]
    decide
  · exact ⟨isInf_roundPack_iff hx, roundPack_eq_of_isInf hx⟩

/-! ### The sign (R85) -/

theorem f32Sign_roundPack {x : Int} (hx : x ≠ 0) : f32Sign (roundPack x) = decide (x < 0) := by
  by_cases hk : 253 < (roundSignificand x.natAbs).2
  · rw [roundPack_overflow x hk]
    exact f32Sign_signWord_or _ 0x7F800000 (by decide)
  · obtain ⟨-, hsign, -, -⟩ := roundPack_finite x hx hk
    exact hsign

/-- Settles O54: roundPack takes the sign from the exact sum, whether it overflows or not. -/
theorem faddKeepsSignOfSum : Obligations.FaddKeepsSignOfSum := by
  intro a b ha hb hx
  rw [fadd32_of_finite ha hb, if_neg hx]
  exact f32Sign_roundPack hx

/-! ### The value of a rounded sum (R85) -/

/-- The multiple of 2^k that m rounds to. -/
def roundedTo (k m : Nat) : Nat := roundTiesToEven m k * 2 ^ k

/-- The magnitude that rounding to 24 significant bits gives. -/
def roundedMag (m : Nat) : Nat := roundedTo (m.log2 - 23) m

/-- The value that rounding to 24 significant bits gives, the sign kept. -/
def roundedUnits (x : Int) : Int := if x < 0 then -(roundedMag x.natAbs : Int) else roundedMag x.natAbs

theorem f32Units_roundPack {x : Int} (hx : x ≠ 0) (h : isFinite (roundPack x) = true) :
    f32Units (roundPack x) = roundedUnits x ∧ f32Frac (roundPack x) % 2 = (roundSignificand x.natAbs).1 % 2 := by
  rcases isFinite_or_isInf_roundPack hx with ⟨hk, -⟩ | ⟨-, hinf⟩
  · obtain ⟨-, hsign, hmag, hlow⟩ := roundPack_finite x hx hk
    rw [f32Units, hsign, hmag, roundedUnits, roundedMag, roundedTo]
    simp [hlow]
  · rw [isInf_eq_false_of_isFinite h] at hinf
    cases hinf

/-- Different multiples of p are at least p apart. -/
theorem le_natAbs_sub_of_dvd {p : Nat} {y z : Int} (hy : (p : Int) ∣ y) (hz : (p : Int) ∣ z) (hne : z ≠ y) :
    p ≤ (z - y).natAbs :=
  Nat.le_of_dvd (by omega) (Int.natCast_dvd.1 (dvd_sub hz hy))

/-- Among the multiples of 2^k none is nearer to m than the rounded one, and at equal distance the rounded one is even. -/
theorem roundedTo_nearest (k m : Nat) {z : Int} (hz : ((2 ^ k : Nat) : Int) ∣ z) :
    (roundedTo k m - m : Int).natAbs ≤ (z - m).natAbs ∧
      ((z - m).natAbs = (roundedTo k m - m : Int).natAbs → z ≠ roundedTo k m → roundTiesToEven m k % 2 = 0) := by
  obtain ⟨hlo, hhi, htie⟩ := roundTiesToEven_spec m k
  have hround : ((2 ^ k : Nat) : Int) ∣ roundedTo k m := Int.natCast_dvd_natCast.2 (dvd_mul_left _ _)
  rw [← roundedTo] at hlo hhi htie
  by_cases hne : z = roundedTo k m
  · exact ⟨by rw [hne], fun _ h => absurd hne h⟩
  · have hapart := le_natAbs_sub_of_dvd hround hz hne
    generalize 2 ^ k = p at *
    exact ⟨by omega, fun heq _ => htie (by omega)⟩

/-- Among the values of 24 significant bits none is nearer to m than the rounded one: those from the binade of m on are
multiples of the unit m is rounded to, and the binade's own lowest value is nearer than all below it. -/
theorem roundedMag_nearest (m : Nat) {z : Int} (hz : fitsSignificand z.natAbs) :
    (roundedMag m - m : Int).natAbs ≤ (z - m).natAbs ∧
      ((z - m).natAbs = (roundedMag m - m : Int).natAbs → z ≠ roundedMag m →
        roundTiesToEven m (m.log2 - 23) % 2 = 0) := by
  by_cases hlarge : m.log2 - 23 ≤ z.natAbs.log2 - 23
  · have hdvd : 2 ^ (m.log2 - 23) ∣ z.natAbs := (pow_dvd_pow 2 hlarge).trans hz
    exact roundedTo_nearest _ m (Int.natCast_dvd.2 hdvd)
  · have hm : m ≠ 0 := by
      rintro rfl
      simp at hlarge
    have hle : 2 ^ m.log2 ≤ m := Nat.log2_self_le hm
    have hlt : z.natAbs < 2 ^ m.log2 :=
      Nat.lt_log2_self.trans_le (Nat.pow_le_pow_right (by decide) (by omega))
    obtain ⟨hnear, -⟩ := roundedTo_nearest (m.log2 - 23) m (Int.natCast_dvd_natCast.2 (pow_dvd_pow 2 (Nat.sub_le _ _)))
    rw [← roundedMag] at hnear
    generalize 2 ^ m.log2 = p at *
    exact ⟨by omega, fun heq _ => by omega⟩

theorem roundedUnits_nearest (x : Int) {z : Int} (hz : fitsSignificand z.natAbs) :
    (roundedUnits x - x).natAbs ≤ (z - x).natAbs ∧
      ((z - x).natAbs = (roundedUnits x - x).natAbs → z ≠ roundedUnits x →
        roundTiesToEven x.natAbs (x.natAbs.log2 - 23) % 2 = 0) := by
  rw [roundedUnits]
  split
  · have hnear := roundedMag_nearest x.natAbs (z := -z) (by rwa [Int.natAbs_neg])
    exact ⟨by omega, fun heq hne => hnear.2 (by omega) (by omega)⟩
  · have hnear := roundedMag_nearest x.natAbs hz
    exact ⟨by omega, fun heq hne => hnear.2 (by omega) hne⟩

theorem roundedUnits_of_fitsSignificand {x : Int} (h : fitsSignificand x.natAbs) : roundedUnits x = x := by
  obtain ⟨hnear, -⟩ := roundedUnits_nearest x h
  omega

/-! ### Exact sums (R84, R85, R88) -/

/-- A value of 24 significant bits below the overflow bound is packed without a change. -/
theorem f32Units_roundPack_of_fitsSignificand {x : Int} (hx : x ≠ 0) (hlt : x.natAbs < (2 ^ 25 - 1) * 2 ^ 252)
    (h : fitsSignificand x.natAbs) : isFinite (roundPack x) = true ∧ f32Units (roundPack x) = x := by
  have hfin : isFinite (roundPack x) = true := by
    rcases isFinite_or_isInf_roundPack hx with ⟨-, hfin⟩ | ⟨-, hinf⟩
    · exact hfin
    · exact absurd ((isInf_roundPack_iff hx).1 hinf) hlt.not_ge
  obtain ⟨hunits, -⟩ := f32Units_roundPack hx hfin
  exact ⟨hfin, hunits.trans (roundedUnits_of_fitsSignificand h)⟩

/-- Settles O50: the value of a datum fits 24 significant bits, and a nonzero value belongs to one datum. -/
theorem faddExactWhenRepresentable : Obligations.FaddExactWhenRepresentable := by
  intro a b y ha hb hy hx hval
  rw [fadd32_of_finite ha hb, if_neg hx, ← hval]
  rw [← hval] at hx
  have hexact := f32Units_roundPack_of_fitsSignificand hx (by rw [natAbs_f32Units]; exact f32Mag_lt_of_isFinite hy)
    (by rw [natAbs_f32Units]; exact fitsSignificand_f32Mag y)
  exact (eq_of_f32Units_eq hx hexact.2.symm).symm

/-- Settles O51: below 2^24 units every whole number fits 24 significant bits. -/
theorem faddSmallSumsExact : Obligations.FaddSmallSumsExact := by
  intro a b ha hb hlt
  rcases fadd32_of_finite_cases ha hb with ⟨hx, h | h⟩ | ⟨hx, h⟩ <;> rw [h]
  · rw [hx]
    decide
  · rw [hx]
    decide
  · exact f32Units_roundPack_of_fitsSignificand hx (hlt.trans (by decide)) (fitsSignificand_of_lt hlt)

/-! ### Nearest, ties to even (R85) -/

theorem roundSignificand_fst_even {m : Nat} (h : roundTiesToEven m (m.log2 - 23) % 2 = 0) :
    (roundSignificand m).1 % 2 = 0 := by
  rw [roundSignificand]
  split
  · norm_num
  · exact h

theorem getLsbD_zero_of_f32Frac_even {x : Bits32} (h : f32Frac x % 2 = 0) : x.getLsbD 0 = false := by
  rw [f32Frac_eq] at h
  rw [BitVec.getLsbD, Nat.testBit_zero, decide_eq_false_iff_not]
  omega

/-- Settles O53: every datum has 24 significant bits, among which rounding answers the nearest. -/
theorem faddRoundsToNearestEven : Obligations.FaddRoundsToNearestEven := by
  intro a b ha hb hfin y hy
  rcases fadd32_of_finite_cases ha hb with ⟨hx, h⟩ | ⟨hx, h⟩
  · have hzero : f32Units (fadd32 a b) = 0 := by
      rcases h with h | h <;> rw [h] <;> decide
    rw [hzero, hx]
    exact ⟨by simp, fun heq hne => absurd (by simpa using heq) hne⟩
  · rw [h] at hfin ⊢
    obtain ⟨hunits, hlow⟩ := f32Units_roundPack hx hfin
    have hfits : fitsSignificand (f32Units y).natAbs := by
      rw [natAbs_f32Units]
      exact fitsSignificand_f32Mag y
    obtain ⟨hnear, htie⟩ := roundedUnits_nearest (f32Units a + f32Units b) hfits
    rw [hunits]
    exact ⟨hnear, fun heq hne =>
      getLsbD_zero_of_f32Frac_even (hlow.trans (roundSignificand_fst_even (htie heq hne)))⟩

end Sys2Proof.Machine
end

section
/-!
PROOFS. The dispatcher (spec/41_dispatch.md): completion and sums of the supported modes (R101 to R107), DISPATCH against the
VADDs (R108), the unsupported mode (R102, R109), and the report an earlier command left (R110, R126, R133).
-/

namespace Sys2Proof.Machine

/-! ### The unsupported mode (R102, R109) -/

/-- Settles O13: the mode is validated before the pointers are looked at. -/
theorem unsupportedModeRaisesErrMode : Obligations.UnsupportedModeRaisesErrMode := fun _ => rfl

/-- Settles O14: the word is the unsupported mode's, and STATUS has ERR_MODE and DONE from it. -/
theorem invalidModeScenario : Obligations.InvalidModeScenario := by
  intro s rest hpending
  have hdec : decode 0x00000034#32 = .ok (.dispatch .unsupported) := decode_encode (.dispatch .unsupported)
  have hissue : ∀ u : State, issueCommand 0x00000034#32 u =
      exec (.dispatch .unsupported) (u.acceptCommand 0x00000034#32) := fun u => by rw [issueCommand, hdec]
  refine ⟨_, (step_of_pending_eq_cons hpending).trans ((hissue _).trans (unsupportedModeRaisesErrMode _)),
    ?_, rfl, rfl, rfl⟩
  simp [Block.statusWord, statusBit]

/-! ### The supported modes under their contract (R101, R104 to R107) -/

/-- Settles O16: chunk k starts at a multiple of W with W elements left in the array. -/
theorem arrayCheckCoversChunks : Obligations.ArrayCheckCoversChunks := by
  intro W _ p d pa pb h k hk
  obtain ⟨hdvd, hle⟩ := dvd_and_add_le_of_mem_chunkOffsets (List.mem_map_of_mem (List.mem_range.2 hk))
  exact pointerFault_chunk h hdvd hle

theorem exec_dispatch_of_contract {mode : Mode} {W : Nat} {s : State} (hsel : selectWidth mode = some W)
    (h : s.contract (4 * W) 64) :
    exec (.dispatch mode) s = .next (afterArray W s.beginCommand).completeCommand := by
  rw [exec, execDispatch, hsel]
  exact congrArg outcomeOf (dispatchWidth_of_contract (s := s.beginCommand) (dvd_of_selectWidth_eq_some hsel) h)

theorem holdsSums_afterArray (W : Nat) (s : State) :
    holdsSums s (afterArray W s.beginCommand).completeCommand 16 := fun i hi =>
  (readElem_writeElems_inside _ _ _ i (by rwa [length_laneSums])).trans (getElem_laneSums ..)

/-- A DISPATCH under its contract completes, with its sums, its frame and its report. -/
theorem dispatch_completes {mode : Mode} {W : Nat} {s : State} (hsel : selectWidth mode = some W)
    (h : s.contract (4 * W) 64) :
    ∃ t, exec (.dispatch mode) s = .next t ∧ holdsSums s t 16 ∧ keepsOutside s.mem t.mem s.dstAddr 64 ∧
      reportsSuccess t (16 / W) ∧ sameFrame s t := by
  have ht := exec_dispatch_of_contract hsel h
  obtain ⟨hframe, hkeeps, -⟩ := dispatchFrame _ _ _ ht
  exact ⟨_, ht, holdsSums_afterArray W s, hkeeps, reportsSuccess_afterArray W s, hframe⟩

/-- Settles O12: under the contract no chunk faults, and the chunks together write the whole array's sums. -/
theorem dispatchWritesArraySums : Obligations.DispatchWritesArraySums := by
  unfold Obligations.DispatchWritesArraySums
  simp only [List.forall_mem_cons, List.not_mem_nil, false_imp_iff, implies_true, and_true]
  exact ⟨fun _ => dispatch_completes (mode := .narrow) rfl, fun _ => dispatch_completes (mode := .medium) rfl,
    fun _ => dispatch_completes (mode := .wide) rfl⟩

/-- A contract asks less at an alignment that divides its own. -/
theorem contract_of_dvd {s : State} {align align' size : Nat} (hdvd : align' ∣ align) (h : s.contract align size) :
    s.contract align' size := by
  obtain ⟨hw, ⟨hd, ha, hb⟩, hrest⟩ := h
  exact ⟨hw, ⟨hdvd.trans hd, hdvd.trans ha, hdvd.trans hb⟩, hrest⟩

/-- Settles O17: the state after the chunk loop depends on the width in KCOUNT alone. -/
theorem crossModeConsistency : Obligations.CrossModeConsistency := by
  intro s h
  have h4 : s.contract (4 * 4) 64 := contract_of_dvd (by decide) h
  have h8 : s.contract (4 * 8) 64 := contract_of_dvd (by decide) h
  exact ⟨_, _, _, exec_dispatch_of_contract (mode := .narrow) rfl h4,
    exec_dispatch_of_contract (mode := .medium) rfl h8, exec_dispatch_of_contract (mode := .wide) rfl h,
    holdsSums_afterArray 16 s, rfl, rfl, rfl, rfl, rfl, rfl, rfl⟩

/-! ### `dispatch wide` is `vadd16` (R108) -/

/-- A DISPATCH with its pointers written answers a fault of its checks, or the whole array's sums. -/
theorem dispatchWidth_of_written_of_dvd {W : Nat} {s : State} (hW : W ∣ 16) (hw : s.block.pointersWritten) :
    dispatchWidth W s = match pointerFault s.platform (4 * W) 64 s.dstAddr s.aAddr s.bAddr with
      | some f => .error f
      | none => .ok (afterArray W s).completeCommand := by
  cases hf : pointerFault s.platform (4 * W) 64 s.dstAddr s.aAddr s.bAddr with
  | some f => rw [dispatchWidth_of_written hw, hf]
  | none => exact dispatchWidth_of_contract hW ⟨hw, (pointerFault_eq_none_iff ..).1 hf⟩

/-- At width 16 the array is one chunk: the checks and the one invocation are those of the VADD. -/
theorem dispatchWidth_sixteen_eq_vadd (s : State) : dispatchWidth 16 s.beginCommand = vadd 16 s := by
  by_cases hw : s.block.pointersWritten
  · rw [dispatchWidth_of_written_of_dvd (s := s.beginCommand) (dvd_refl 16) hw, vadd_of_written hw]
    rfl
  · rw [dispatchWidth_of_not_written (s := s.beginCommand) hw, vadd_of_not_written hw]

/-- Settles O18: the wide mode's one chunk is the VADD's one invocation, and both check the same 64 bytes. -/
theorem dispatchWideEqualsVadd16 : Obligations.DispatchWideEqualsVadd16 := fun s =>
  congrArg outcomeOf (dispatchWidth_sixteen_eq_vadd s)

/-! ### DISPATCH as VADDs at successive chunks (R108) -/

/-- A pointer moved inside a range of the address space does not wrap, as ADDR_W is at most 64. -/
theorem toNat_add_ofNat_of_inSpace {p : Platform} (hp : Platform.legal p) {v : Bits64} {k n : Nat}
    (hv : v.toNat + n ≤ 2 ^ p.addrW) (hk : k < n) : (v + BitVec.ofNat 64 k).toNat = v.toNat + k := by
  obtain ⟨-, hle, -⟩ := hp
  have hpow : 2 ^ p.addrW ≤ 2 ^ 64 := Nat.pow_le_pow_right (by decide) hle
  rw [BitVec.toNat_add, BitVec.toNat_ofNat]
  omega

@[simp] theorem movePointers_mem (base s : State) (k : Nat) : (base.movePointers k s).mem = s.mem := rfl
@[simp] theorem movePointers_platform (base s : State) (k : Nat) : (base.movePointers k s).platform = s.platform := rfl

theorem pointersWritten_movePointers (base s : State) (k : Nat) : (base.movePointers k s).block.pointersWritten :=
  ⟨rfl, rfl, rfl⟩

/-- The addresses in the moved pointers are the base's, moved, when the base's arrays are in the address space. -/
theorem addrs_movePointers {s u : State} {k : Nat} (h : s.pointersAdmitted 64) (hp : Platform.legal s.platform)
    (hk : k < 64) :
    (s.movePointers k u).dstAddr = s.dstAddr + k ∧ (s.movePointers k u).aAddr = s.aAddr + k ∧
      (s.movePointers k u).bAddr = s.bAddr + k := by
  obtain ⟨⟨ha, -⟩, ⟨hb, -⟩, ⟨hd, -⟩⟩ := h
  exact ⟨toNat_add_ofNat_of_inSpace hp hd hk, toNat_add_ofNat_of_inSpace hp ha hk, toNat_add_ofNat_of_inSpace hp hb hk⟩

/-- Element offset o is where a chunk of W elements of the 16 starts. -/
def chunkStart (W o : Nat) : Prop := 0 < W ∧ W ∣ o ∧ o + W ≤ 16

theorem contract_movePointers {W o : Nat} {s u : State} (h : s.contract (4 * W) 64)
    (hp : Platform.legal s.platform) (ho : chunkStart W o) (hu : u.platform = s.platform) :
    (s.movePointers (4 * o) u).contract (4 * W) (4 * W) := by
  obtain ⟨hW, hdvd, hle⟩ := ho
  have ⟨_, _, hadmitted, _⟩ := h
  obtain ⟨hd, ha, hb⟩ := addrs_movePointers (u := u) (k := 4 * o) hadmitted hp (by omega)
  refine ⟨pointersWritten_movePointers s u (4 * o), (pointerFault_eq_none_iff ..).1 ?_⟩
  rw [hd, ha, hb, movePointers_platform, hu]
  exact pointerFault_chunk (pointerFault_of_contract h) hdvd hle

/-- `u` has the platform of `s`, and its memory with the first n sums of the array written. -/
def afterSums (s u : State) (n : Nat) : Prop :=
  u.platform = s.platform ∧ u.mem = s.mem.writeElems s.dstAddr (laneSums n s.mem s.aAddr s.bAddr)

theorem afterSums_zero (s : State) : afterSums s s 0 := ⟨rfl, rfl⟩

/-- With the first o sums written, the VADD of the chunk at o completes and adds the W sums from there on. -/
theorem vadd_movePointers {W : Nat} {s : State} (h : s.contract (4 * W) 64) (hp : Platform.legal s.platform)
    (o : Nat) (ho : chunkStart W o) (u : State) (hu : afterSums s u o) :
    ∃ t, outcomeOf (vadd W (s.movePointers (4 * o) u)) = .next t ∧ afterSums s t (o + W) := by
  obtain ⟨hplat, hmem⟩ := hu
  have ht := vadd_of_contract (contract_movePointers h hp ho hplat)
  obtain ⟨hW, -, hle⟩ := ho
  obtain ⟨-, -, hadmitted, hsa, hsb⟩ := h
  obtain ⟨hd, ha, hb⟩ := addrs_movePointers (u := u) (k := 4 * o) hadmitted hp (by omega)
  refine ⟨_, outcomeOf_eq_next_iff.2 ht, hplat, ?_⟩
  rw [vadd_mem ht, hd, ha, hb, movePointers_mem, hmem, writeElems_chunk s.mem hle hsa hsb]

/-- Settles O19: each VADD adds its chunk's sums to those before it, and after the last all 16 are written. -/
theorem dispatchEqualsVaddSequence : Obligations.DispatchEqualsVaddSequence := by
  constructor
  · intro s h hp
    have hrun := vadd_movePointers (W := 8) h hp
    obtain ⟨t0, e0, h0⟩ := hrun 0 (by simp [chunkStart]) s (afterSums_zero s)
    obtain ⟨t1, e1, h1⟩ := hrun 8 (by simp [chunkStart]) t0 h0
    exact ⟨_, t0, t1, exec_dispatch_of_contract (mode := .medium) rfl h, e0, e1, h1.2.symm⟩
  · intro s h hp
    have hrun := vadd_movePointers (W := 4) h hp
    obtain ⟨t0, e0, h0⟩ := hrun 0 (by simp [chunkStart]) s (afterSums_zero s)
    obtain ⟨t1, e1, h1⟩ := hrun 4 (by simp [chunkStart]) t0 h0
    obtain ⟨t2, e2, h2⟩ := hrun 8 (by simp [chunkStart]) t1 h1
    obtain ⟨t3, e3, h3⟩ := hrun 12 (by simp [chunkStart]) t2 h2
    exact ⟨_, t0, t1, t2, t3, exec_dispatch_of_contract (mode := .narrow) rfl h, e0, e1, e2, e3, h3.2.symm⟩

/-! ### The earlier report plays no part (R110, R126, R133) -/

/-- The state with another value of STATUS.DONE, which acceptance leaves as it was (R25, R115). -/
def State.setDone (s : State) (done : Bool) : State := { s with block := { s.block with done := done } }

theorem vadd_setDone (W : Nat) (s : State) (done : Bool) : vadd W (s.setDone done) = vadd W s := by
  by_cases hw : s.block.pointersWritten
  · rw [vadd_of_written (s := s.setDone done) hw, vadd_of_written hw]
    rfl
  · rw [vadd_of_not_written (s := s.setDone done) hw, vadd_of_not_written hw]

theorem dispatchWidth_setDone {W : Nat} (hW : W ∣ 16) (s : State) (done : Bool) :
    dispatchWidth W (s.setDone done) = dispatchWidth W s := by
  by_cases hw : s.block.pointersWritten
  · rw [dispatchWidth_of_written_of_dvd (s := s.setDone done) hW hw, dispatchWidth_of_written_of_dvd hW hw]
    rfl
  · rw [dispatchWidth_of_not_written (s := s.setDone done) hw, dispatchWidth_of_not_written hw]

/-- Every outcome of a command that is a next state sets DONE, so what DONE held before is lost. -/
theorem exec_setDone (i : Instr) (s : State) (done : Bool) : exec i (s.setDone done) = exec i s := by
  cases i with
  | vadd4 => exact congrArg outcomeOf (vadd_setDone 4 s done)
  | vadd8 => exact congrArg outcomeOf (vadd_setDone 8 s done)
  | vadd16 => exact congrArg outcomeOf (vadd_setDone 16 s done)
  | dispatch mode =>
    cases hsel : selectWidth mode with
    | none => simp only [exec, execDispatch, hsel]; rfl
    | some W =>
      simp only [exec, execDispatch, hsel]
      exact congrArg outcomeOf (dispatchWidth_setDone (dvd_of_selectWidth_eq_some hsel) s.beginCommand done)

theorem issueCommand_eq_of_acceptCommand_eq_setDone {w : Bits32} {s s' : State} {done : Bool}
    (h : s'.acceptCommand w = (s.acceptCommand w).setDone done) : issueCommand w s' = issueCommand w s := by
  rw [issueCommand, issueCommand, h]
  cases decode w with
  | error r => rfl
  | ok i => exact exec_setDone i _ done

/-- Settles O34: acceptance overwrites CMD, the error bits and KCOUNT, and every command overwrites DONE. -/
theorem commandIgnoresEarlierReport : Obligations.CommandIgnoresEarlierReport := by
  intro s v rest cmd kcount done errMode errCmd hpending
  rw [step_of_pending_eq_cons hpending]
  refine Eq.trans (step_of_pending_eq_cons hpending) ?_
  exact issueCommand_eq_of_acceptCommand_eq_setDone (done := done) rfl

end Sys2Proof.Machine
end

section
/-!
PROOFS. The host's accesses (spec/42_host_access.md): which register accesses are legal (R112, R113), what a read returns
(R114, R116, R117, R119, R122), what a write does (R115, R118, R120, R121), direct reads of memory (R111), and the values
STATUS takes (R117, R134).
-/

namespace Sys2Proof.Machine

/-! ### Legal accesses (R112, R113) -/

theorem selectReg_eq_none_iff (offset width : Nat) : selectReg offset width = none ↔
    (offset, width) ∉ [(0x00, 32), (0x04, 32), (0x08, 32), (0x10, 64), (0x18, 64), (0x20, 64)] := by
  unfold selectReg
  split_ifs <;> simp_all

/-- A read of a register fails only for want of a first write (R33, R122). -/
theorem eq_unwrittenPtr_of_readReg_eq_error {b : Block} {r : BlockReg} {f : Fault} (h : b.readReg r = .error f) :
    f = .unwrittenPtr := by
  have hread {p : PtrReg} (hp : p.read = .error f) : f = .unwrittenPtr := by
    rw [PtrReg.read] at hp
    split at hp <;> cases hp
    rfl
  cases r with
  | cmd | status | kcount => cases h
  | dstPtr | aPtr | bPtr => exact hread h

/-- Every command but `dispatch unsupported` uses the pointers. -/
theorem eq_unsupported_or_mem_commandChecks (i : Instr) :
    i = .dispatch .unsupported ∨ ∃ c ∈ commandChecks, c.1 = i := by
  cases i with
  | dispatch mode => cases mode <;> decide
  | _ => decide

/-- The checks answer no other fault than their three (R129). -/
theorem checksFault_eq_some {s : State} {align size : Nat} {f : Fault} (h : s.checksFault align size = some f) :
    f = .misaligned ∨ f = .oob ∨ f = .overlap := by
  rw [State.checksFault] at h
  rcases pointerFault_cases s.platform align size s.dstAddr s.aAddr s.bAddr with
    ⟨-, e⟩ | ⟨-, -, e⟩ | ⟨-, -, -, e⟩ | ⟨-, -, -, e⟩ <;> rw [e] at h
  · exact .inl (Option.some.inj h).symm
  · exact .inr (.inl (Option.some.inj h).symm)
  · exact .inr (.inr (Option.some.inj h).symm)
  · cases h

/-- A command faults with one of the four command faults of R127 alone. -/
theorem exec_eq_fault {i : Instr} {s : State} {f : Fault} (h : exec i s = .fault f) :
    f = .unwrittenPtr ∨ f = .misaligned ∨ f = .oob ∨ f = .overlap := by
  rcases eq_unsupported_or_mem_commandChecks i with rfl | ⟨c, hc, rfl⟩
  · rw [unsupportedModeRaisesErrMode] at h
    cases h
  · by_cases hw : s.block.pointersWritten
    · exact .inr (checksFault_eq_some ((exec_eq_fault_iff c hc s hw f).1 h))
    · rw [unwrittenPointerFaults c.1 (List.mem_map_of_mem (f := Prod.fst) hc) s hw] at h
      exact .inl (Host.Outcome.fault.inj h).symm

theorem issueCommand_of_decode_eq_ok {w : Bits32} {i : Instr} (h : decode w = .ok i) (s : State) :
    issueCommand w s = exec i (s.acceptCommand w) := by
  rw [issueCommand, h]

/-- The window's own fault is never the outcome of a command. -/
theorem issueCommand_ne_regAccess (w : Bits32) (s : State) : issueCommand w s ≠ .fault .regAccess := by
  intro h
  cases hdec : decode w with
  | error r =>
    rw [issueCommand_of_decode_eq_error hdec] at h
    cases h
  | ok i =>
    rw [issueCommand_of_decode_eq_ok hdec] at h
    exact absurd (exec_eq_fault h) (by decide)

theorem hostRegRead_eq_regAccess_iff (offset width : Nat) (s : State) :
    hostRegRead offset width s = .fault .regAccess ↔ selectReg offset width = none := by
  rw [hostRegRead]
  cases selectReg offset width with
  | none => simp
  | some r =>
    cases hread : s.block.readReg r with
    | error f => simp [hread, eq_unwrittenPtr_of_readReg_eq_error hread]
    | ok v => simp [hread]

theorem hostRegWrite_eq_regAccess_iff (offset width : Nat) (v : Bits64) (s : State) :
    hostRegWrite offset width v s = .fault .regAccess ↔ selectReg offset width = none := by
  rw [hostRegWrite]
  cases selectReg offset width with
  | none => simp
  | some r =>
    cases r with
    | cmd => simp [issueCommand_ne_regAccess]
    | _ => simp

/-- Settles O31: an access selects a register or faults, and no register's own effect is F_REG_ACCESS. -/
theorem illegalAccessFaultsExactly : Obligations.IllegalAccessFaultsExactly := by
  intro s offset width v rest
  rw [← selectReg_eq_none_iff]
  refine ⟨fun hp => ?_, fun hp => ?_⟩ <;> rw [step_of_pending_eq_cons hp]
  · exact hostRegRead_eq_regAccess_iff ..
  · exact hostRegWrite_eq_regAccess_iff ..

/-! ### STATUS (R117, R134) -/

/-- No command raises both errors (R134). -/
theorem not_both_errors_reportOf (w : Bits32) : ¬ ((reportOf w).1 = true ∧ (reportOf w).2.1 = true) := by
  unfold reportOf
  split <;> simp

/-- The registers agree only on reports that raise at most one error (R134). -/
theorem not_both_errors_of_consistent {b : Block} (h : b.consistent) : ¬ (b.errMode = true ∧ b.errCmd = true) := by
  rw [Block.consistent] at h
  split at h
  · rintro ⟨hmode, hcmd⟩
    exact not_both_errors_reportOf b.cmd (by simp [← h, hmode, hcmd])
  · obtain ⟨-, hmode, -, -⟩ := h
    simp [hmode]

theorem statusWord_of_consistent_of_not_done {b : Block} (h : b.consistent) (hdone : b.done = false) :
    b.statusWord = 0x00000000#32 := by
  obtain ⟨-, hmode, hcmd, -⟩ : b.cmd = 0 ∧ b.errMode = false ∧ b.errCmd = false ∧ b.kcount = 0 := by
    simpa [Block.consistent, hdone] using h
  simp [Block.statusWord, statusBit, hdone, hmode, hcmd]

theorem statusWord_of_done {b : Block} (hdone : b.done = true) (h : ¬ (b.errMode = true ∧ b.errCmd = true)) :
    b.statusWord = 0x00000001#32 ∨ b.statusWord = 0x00000003#32 ∨ b.statusWord = 0x00000005#32 := by
  cases hmode : b.errMode <;> cases hcmd : b.errCmd
  case true.true => exact absurd ⟨hmode, hcmd⟩ h
  all_goals simp [Block.statusWord, statusBit, hdone, hmode, hcmd]

/-- Settles O43: under the invariant no bit is set before the first command, and at most one error bit after it. -/
theorem statusValuesUnderInv : Obligations.StatusValuesUnderInv := by
  rintro s ⟨-, -, hcons, -⟩
  have hboth := not_both_errors_of_consistent hcons
  exact ⟨statusWord_of_consistent_of_not_done hcons, fun hdone => statusWord_of_done hdone hboth, hboth⟩

theorem getLsbD_statusBit {p : Nat} (hp : p < 32) (b : Bool) (k : Nat) :
    (statusBit p b).getLsbD k = (decide (k = p) && b) := by
  cases b with
  | false => simp [statusBit]
  | true =>
    have hbit : (2 ^ p).testBit k = decide (k = p) := by
      rw [Nat.testBit_two_pow]
      exact decide_eq_decide.2 eq_comm
    rw [statusBit, if_pos rfl, BitVec.getLsbD_ofNat, hbit, Bool.and_true, Bool.and_eq_right_iff_imp]
    intro hk
    rw [decide_eq_true_eq] at hk ⊢
    exact hk ▸ hp

/-- The layout of STATUS (R24, R28). -/
theorem getLsbD_statusWord (b : Block) (k : Nat) : b.statusWord.getLsbD k =
    ((decide (k = 0) && b.done) || (decide (k = 1) && b.errMode) || (decide (k = 2) && b.errCmd)) := by
  simp [Block.statusWord, getLsbD_statusBit]

/-! ### Register reads (R114, R116, R117, R119, R122) -/

/-- A step that reads a register whose value can be read replies with it, and takes the operation off the queue. -/
theorem step_regRead_of_readReg_eq_ok {s : State} {offset width : Nat} {rest : List HostOp} {r : BlockReg} {v : Bits64}
    (hp : s.pending = .regRead offset width :: rest) (hsel : selectReg offset width = some r)
    (hv : s.block.readReg r = .ok v) :
    step s = .next { s with pending := rest, replies := s.replies ++ [.reg offset width v] } := by
  rw [step_of_pending_eq_cons hp]
  simp only [performHostOp, hostRegRead, hsel, hv]
  rfl

theorem step_regRead_of_readReg_eq_error {s : State} {offset width : Nat} {rest : List HostOp} {r : BlockReg}
    {f : Fault} (hp : s.pending = .regRead offset width :: rest) (hsel : selectReg offset width = some r)
    (hf : s.block.readReg r = .error f) : step s = .fault f := by
  rw [step_of_pending_eq_cons hp]
  simp only [performHostOp, hostRegRead, hsel, hf]

/-- Settles O26: the value is the STATUS word, with zeros above its 32 bits. -/
theorem statusReadReturnsBits : Obligations.StatusReadReturnsBits := by
  intro s rest hp
  refine ⟨_, step_regRead_of_readReg_eq_ok (r := .status) hp rfl rfl, ?_⟩
  simp only [BitVec.getLsbD_setWidth, getLsbD_statusWord]
  refine ⟨by simp, by simp, by simp, fun k hk => ?_⟩
  have h0 : k ≠ 0 := by omega
  have h1 : k ≠ 1 := by omega
  have h2 : k ≠ 2 := by omega
  simp [h0, h1, h2]

/-- Settles O27: CMD and KCOUNT can be read in every state. -/
theorem cmdAndKcountReadBack : Obligations.CmdAndKcountReadBack := fun _ _ =>
  ⟨fun hp => step_regRead_of_readReg_eq_ok (r := .cmd) hp rfl rfl,
    fun hp => step_regRead_of_readReg_eq_ok (r := .kcount) hp rfl rfl⟩

/-- A step that reads a pointer register replies with its value when it is written, and faults when it is not (R122). -/
theorem step_regRead_of_pointer {s : State} {offset : Nat} {rest : List HostOp} {r : BlockReg} {p : PtrReg}
    (hp : s.pending = .regRead offset 64 :: rest) (hsel : selectReg offset 64 = some r)
    (hr : s.block.readReg r = p.read) :
    (p.written = true → step s = .next { s with pending := rest, replies := s.replies ++ [.reg offset 64 p.value] }) ∧
      (p.written = false → step s = .fault .unwrittenPtr) := by
  refine ⟨fun hw => step_regRead_of_readReg_eq_ok hp hsel ?_, fun hw => step_regRead_of_readReg_eq_error hp hsel ?_⟩
  all_goals simp [hr, PtrReg.read, hw]

/-- Settles O29: each of the three offsets selects its pointer register. -/
theorem pointerReadReturnsValueOrFaults : Obligations.PointerReadReturnsValueOrFaults := by
  intro s rest
  simp only [List.forall_mem_cons, List.not_mem_nil, false_imp_iff, implies_true, and_true]
  exact ⟨fun hp => step_regRead_of_pointer (r := .dstPtr) hp rfl rfl,
    fun hp => step_regRead_of_pointer (r := .aPtr) hp rfl rfl,
    fun hp => step_regRead_of_pointer (r := .bPtr) hp rfl rfl⟩

/-- A step that reads a register and answers a next state found a legal offset and a value there. -/
theorem step_regRead_eq_next {s t : State} {offset width : Nat} {rest : List HostOp}
    (hp : s.pending = .regRead offset width :: rest) (h : step s = .next t) :
    ∃ r v, selectReg offset width = some r ∧ s.block.readReg r = .ok v ∧
      t = { s with pending := rest, replies := s.replies ++ [.reg offset width v] } := by
  rw [step_of_pending_eq_cons hp] at h
  exact hostRegRead_eq_next (s := { s with pending := rest }) h

/-- Settles O32: the first read leaves the registers as they are, so the second finds the same value. -/
theorem registerReadIsRepeatable : Obligations.RegisterReadIsRepeatable := by
  intro s t offset width rest hp h
  obtain ⟨r, v, hsel, hv, rfl⟩ := step_regRead_eq_next hp h
  refine ⟨rfl, rfl, rfl, v, _, rfl, step_regRead_of_readReg_eq_ok rfl hsel hv, ?_⟩
  simp

/-! ### Register writes (R115, R118, R120, R121) -/

/-- Settles O5: a CMD write accepts the word and then decodes it. -/
theorem stepRunsDecodedCommand : Obligations.StepRunsDecodedCommand := by
  rintro s v rest hp _ rfl
  have hissue : step s = issueCommand (v.setWidth 32) { s with pending := rest } := step_of_pending_eq_cons hp
  rw [hissue]
  exact ⟨fun i hdec => issueCommand_of_decode_eq_ok hdec _, fun r hdec => issueCommand_of_decode_eq_error hdec _⟩

/-- The register of the window that a pointer is held in (R20, R30 to R32). -/
def PtrName.blockReg : PtrName → BlockReg
  | .dst => .dstPtr
  | .a => .aPtr
  | .b => .bPtr

/-- A step that writes a pointer register stores every value (R121). -/
theorem step_regWrite_of_pointer {s : State} {offset width : Nat} {v : Bits64} {rest : List HostOp} {r : PtrName}
    (hp : s.pending = .regWrite offset width v :: rest) (hsel : selectReg offset width = some r.blockReg) :
    step s = .next ({ s with pending := rest }.writePtr r v) := by
  rw [step_of_pending_eq_cons hp]
  cases r <;> simp only [performHostOp, hostRegWrite, hsel, PtrName.blockReg]

/-- Settles O28: each of the three offsets selects its pointer register. -/
theorem pointerWriteStoresEveryValue : Obligations.PointerWriteStoresEveryValue := fun _ _ _ =>
  ⟨fun hp => step_regWrite_of_pointer (r := .dst) hp rfl, fun hp => step_regWrite_of_pointer (r := .a) hp rfl,
    fun hp => step_regWrite_of_pointer (r := .b) hp rfl⟩

/-- Settles O30: a write to either register has no effect of its own. -/
theorem readOnlyWritesIgnored : Obligations.ReadOnlyWritesIgnored := by
  rintro s v rest (hp | hp) <;> exact step_of_pending_eq_cons hp

/-! ### Direct reads of memory (R111) -/

theorem getElem_readBytes (m : Memory) (a n k : Nat) (hk : k < (m.readBytes a n).length) :
    (m.readBytes a n)[k] = m.readByte (a + k) := by
  induction n generalizing a k with
  | zero => cases hk
  | succ n ih =>
    cases k with
    | zero => rfl
    | succ k =>
      have hnext := ih (a + 1) k (Nat.lt_of_succ_lt_succ hk)
      rwa [Nat.add_right_comm a 1 k] at hnext

theorem hostMemRead_of_hostMemFault_eq_none {a n : Nat} {s : State} (h : hostMemFault s.platform a n = none) :
    hostMemRead a n s = .next (s.reply (.mem a (s.mem.readBytes a n))) := by
  rw [hostMemRead, h]

/-- Settles O36: off the window the reply is the bytes of the range. -/
theorem hostMemoryReadReturnsBytes : Obligations.HostMemoryReadReturnsBytes := by
  intro s a n rest hp hspace hoff
  refine ⟨s.mem.readBytes a n, ?_, length_readBytes s.mem a n, getElem_readBytes s.mem a n⟩
  rw [step_of_pending_eq_cons hp]
  exact hostMemRead_of_hostMemFault_eq_none (hostMemFault_eq_none hspace hoff)

end Sys2Proof.Machine
end

section
/-!
PROOFS. What a command and a step can end in (spec/60_exceptions.md R123, R127): no command is refused, so its outcome is a next
state or one of the four command faults; and a step with no host operation left is the idle step (log entry 6, R140).
-/

namespace Sys2Proof.Machine

/-! ### The outcomes of a command (R123, R127) -/

theorem outcomeOf_ne_refused (result : Except Fault State) (r : Refusal) : outcomeOf result ≠ .refused r := by
  cases result <;> exact nofun

theorem execDispatch_ne_refused (mode : Mode) (s : State) (r : Refusal) : execDispatch mode s ≠ .refused r := by
  rw [execDispatch]
  cases selectWidth mode with
  | none => exact nofun
  | some W => exact outcomeOf_ne_refused _ r

/-- No command is without a meaning. -/
theorem exec_ne_refused (i : Instr) (s : State) (r : Refusal) : exec i s ≠ .refused r := by
  cases i with
  | vadd4 => exact outcomeOf_ne_refused (vadd 4 s) r
  | vadd8 => exact outcomeOf_ne_refused (vadd 8 s) r
  | vadd16 => exact outcomeOf_ne_refused (vadd 16 s) r
  | dispatch mode => exact execDispatch_ne_refused mode s r

/-- Settles O25: a command is never refused, and its faults are the unwritten pointer and those of its checks. -/
theorem commandOutcomesAreListed : Obligations.CommandOutcomesAreListed := by
  intro i s
  cases h : exec i s with
  | next t => exact .inl ⟨t, rfl⟩
  | fault f => rcases exec_eq_fault h with rfl | rfl | rfl | rfl <;> simp
  | refused r => exact absurd h (exec_ne_refused i s r)

/-! ### The idle step (log entry 6, R140) -/

/-- Settles O6: with the queue empty a step takes its idle branch, the model's own choice (log entry 6). -/
theorem idleStepHoldsState : Obligations.IdleStepHoldsState := fun _ hidle => by rw [step, hidle]

end Sys2Proof.Machine
end

section
/-!
PROOFS. The caller's contract (spec/70_reset_and_hazards.md R153) is what a command needs to complete and all it needs; and the
reset input leaves memory alone (R144).
-/

namespace Sys2Proof.Machine

/-! ### Completion (R91, R104, R153) -/

theorem vadd_completes_iff (W : Nat) (s : State) :
    (∃ t, outcomeOf (vadd W s) = .next t) ↔ s.contract (4 * W) (4 * W) := by
  constructor
  · rintro ⟨t, ht⟩
    exact (vadd_eq_ok (outcomeOf_eq_next_iff.1 ht)).1
  · intro h
    exact ⟨_, outcomeOf_eq_next_iff.2 (vadd_of_contract h)⟩

theorem dispatch_completes_iff {mode : Mode} {W : Nat} (hsel : selectWidth mode = some W) (s : State) :
    (∃ t, exec (.dispatch mode) s = .next t) ↔ s.contract (4 * W) 64 := by
  constructor
  · rintro ⟨t, ht⟩
    rcases execDispatch_eq_next ht with ⟨rfl, -⟩ | ⟨W', hsel', hc, -⟩
    · cases hsel
    · cases hsel.symm.trans hsel'
      exact hc
  · intro h
    exact ⟨_, exec_dispatch_of_contract hsel h⟩

/-- Settles O9: each command's checks are its contract, at its own width; no chunk of a DISPATCH adds a condition. -/
theorem commandCompletesIffContract : Obligations.CommandCompletesIffContract := by
  unfold Obligations.CommandCompletesIffContract
  simp only [List.forall_mem_cons, List.not_mem_nil, false_imp_iff, implies_true, and_true]
  exact ⟨vadd_completes_iff 4, vadd_completes_iff 8, vadd_completes_iff 16,
    dispatch_completes_iff (mode := .narrow) rfl, dispatch_completes_iff (mode := .medium) rfl,
    dispatch_completes_iff (mode := .wide) rfl⟩

/-! ### The reset input (R144, log entries 3 and 14) -/

theorem step_of_pending_eq_reset {s : State} {rest : List HostOp} (h : s.pending = .reset :: rest) :
    step s = .next { s with pending := rest }.resetBlock := by
  rw [step_of_pending_eq_cons h, performHostOp]

/-- Settles O40: the reset input replaces the block's registers and nothing else. -/
theorem resetKeepsMemory : Obligations.ResetKeepsMemory := fun _ _ hp =>
  ⟨_, step_of_pending_eq_reset hp, resetBlock_mem _, resetBlock_platform _, resetBlock_pending _, resetBlock_replies _⟩

end Sys2Proof.Machine
end
